-- ==== Sys2Proof/Word.lean ====
section
/-! DEFINITION. The word types of the engine (`20_memory.md` R61, R62). -/

namespace Sys2Proof

/-- A byte of the key, of a message or of a digest (`00_scope.md` R8). -/
abbrev Byte := BitVec 8

/-- The 32-bit bus word and the SHA-1 word (`00_scope.md` R6, `BUS_DATA_BITS`). -/
abbrev Word := BitVec 32

/-- The word address the bus carries, byte offset bits 7:2 (`10_state.md` R47, `30_encoding.md` R91). -/
abbrev WordAddr := BitVec 6

end Sys2Proof
end

