-- ==== Sys2Proof/Config.lean ====
section
/-! DEFINITION. The parameters of the block with the values this hardware takes (`00_scope.md` R6) and the one
parameter left open, `BASE`. Taken as constants: DESIGN CHOICE, safe, log entry 15. -/

namespace Sys2Proof

/-- `STEP_SECONDS` (R6). -/
def Config.stepSeconds : Nat := 30

/-- `DIGITS` (R6). -/
def Config.digits : Nat := 6

/-- `MODULUS` = 10^`DIGITS` (R6). -/
def Config.modulus : Nat := 10 ^ Config.digits

/-- `BLOCK_BYTES` (R6, R130). -/
def Config.blockBytes : Nat := 64

/-- `KEY_MAX`, in bytes (R6). -/
def Config.keyMax : Nat := 64

/-- `BASE`, where the platform puts the register window (`20_memory.md` R60, R72; `93_implementation_defined.md`
I25). The spec leaves it open, so it has no body here, and no rule of the engine uses it (DESIGN CHOICE, safe, log entry 9). -/
opaque Config.base : Nat

end Sys2Proof
end

