-- ==== Sys2Proof/Machine/Window.lean ====
section
/-! DEFINITION. The register window: register names, the address map (`10_state.md` R23), the bus transaction
(`30_encoding.md` R91) and the events of the environment (`20_memory.md` R75). -/

namespace Sys2Proof.Machine

/-- The registers of the window (`10_state.md` R23). -/
inductive Reg where
  | cmd
  | status
  | irqEn
  | keyLen
  | timeHi
  | timeLo
  | codeBcd
  | codeAscii0
  | codeAscii1
  | step
  | caps
  /-- `KEYW0` to `KEYW15`. -/
  | keyW (j : BitVec 4)
  /-- A reserved word, at its word address (`20_memory.md` R66). -/
  | reserved (a : WordAddr)
  deriving DecidableEq, Repr

/-- The register at a word address: the map of `10_state.md` R23, total on all 64 words. -/
def Reg.ofAddr (a : WordAddr) : Reg :=
  match a.toNat with
  | 0x00 => .cmd
  | 0x01 => .status
  | 0x02 => .irqEn
  | 0x03 => .keyLen
  | 0x04 => .timeHi
  | 0x05 => .timeLo
  | 0x06 => .codeBcd
  | 0x07 => .codeAscii0
  | 0x08 => .codeAscii1
  | 0x09 => .step
  | 0x0A => .caps
  | n => if 0x10 ≤ n ∧ n < 0x20 then .keyW (a.extractLsb' 0 4) else .reserved a

/-- The word address of a register: its byte offset in `10_state.md` R23 divided by 4. -/
def Reg.addr : Reg → WordAddr
  | .cmd => 0x00
  | .status => 0x01
  | .irqEn => 0x02
  | .keyLen => 0x03
  | .timeHi => 0x04
  | .timeLo => 0x05
  | .codeBcd => 0x06
  | .codeAscii0 => 0x07
  | .codeAscii1 => 0x08
  | .step => 0x09
  | .caps => 0x0A
  | .keyW j => 0b01#2 ++ j
  | .reserved a => a

/-- The registers that ignore host writes while `phase = RUN` (`10_state.md` R45). -/
def Reg.locked : Reg → Bool
  | .cmd => true
  | .keyLen => true
  | .timeHi => true
  | .timeLo => true
  | .keyW _ => true
  | .status => false
  | .irqEn => false
  | .codeBcd => false
  | .codeAscii0 => false
  | .codeAscii1 => false
  | .step => false
  | .caps => false
  | .reserved _ => false

/-- Where the platform sees a word of the window (`20_memory.md` R60, R72): no rule of the engine uses it. -/
def platformAddress (a : WordAddr) : Nat := Config.base + 4 * a.toNat

/-- A bus transaction `(we, addr, wdata)` (`30_encoding.md` R91); `wdata` is ignored for a read. -/
structure Txn where
  we : Bool
  addr : WordAddr
  wdata : Word
  deriving DecidableEq, Repr

/-- What the environment can make happen next (`20_memory.md` R75), in the words of the script notation
(`30_encoding.md` R99, R100): a host access (`wr`, `rd`), the engine's completion step (`run`), a reset (`reset`), and
the host's waiting loop (`poll`). -/
inductive Event where
  | access (t : Txn)
  | run
  | reset
  /-- `poll`: the host reads `STATUS` until the value read has `BUSY = 0` (R100). Should the engine be in RUN, `more` is
  how many reads after the first one come before its completion: the latency, which `44_commands.md` R179 leaves open.
  Completion before the first read, which R179 allows too, is a `run` before the `poll` (DESIGN CHOICE, log
  entry 10). -/
  | poll (more : Nat)
  deriving DecidableEq, Repr

/-- The most steps an event can take: one, but for `poll` its first read, `more` further reads, the completion they
wait for and the last read. -/
def Event.steps : Event → Nat
  | .access _ => 1
  | .run => 1
  | .reset => 1
  | .poll more => more + 3

end Sys2Proof.Machine
end

