-- ==== Sys2Proof/Syntax.lean ====
section
/-! DEFINITION. The command set: one constructor per row of `spec/opcode_table.json` (`30_encoding.md` R94). -/

namespace Sys2Proof

/-- A command of command set 1. Commands have no register fields, no immediates and no mode bits; their operands are
implicit (R92, R95). -/
inductive Instr where
  /-- NOP, word 0x00000000 (`44_commands.md` R171). -/
  | nop
  /-- GENERATE, word 0x00000001 (`44_commands.md` R172). -/
  | generate
  /-- ZEROIZE, word 0x00000002 (`44_commands.md` R173). -/
  | zeroize
  deriving DecidableEq, Repr

end Sys2Proof
end

