-- ==== Sys2Proof/WellFormed.lean ====
section
/-! DEFINITION. The checks on what a host may write down: a command, a byte offset, a key. -/

namespace Sys2Proof

/-- Every command is well formed: it has no operand field that could hold a bad value (`30_encoding.md` R92). -/
def Instr.wellFormed : Instr → Bool
  | .nop => true
  | .generate => true
  | .zeroize => true

/-- The byte offsets a transaction may have: aligned to a word and inside the window (`20_memory.md` R65). -/
def admittedOffset (off : Nat) : Bool := off % 4 == 0 && decide (off ≤ 0xFC)

/-- The keys `loadkey` can express: at most the 64 bytes of the sixteen key words (`30_encoding.md` R100). -/
def loadableKey (bytes : List Byte) : Bool := decide (bytes.length ≤ Config.keyMax)

end Sys2Proof
end

