-- ==== Sys2Proof/Decode.lean ====
section
/-! DEFINITION. Decoding of command words (`30_encoding.md` R92 to R98), total on all 2^32 words; the encoder; the
command table; and the admission of byte offsets (`20_memory.md` R65). -/

namespace Sys2Proof

/-- Why a word or an offset names nothing. -/
inductive Rejected where
  /-- A reserved command word (`30_encoding.md` R96). -/
  | reservedCommand (w : Word)
  /-- A byte offset that is no word of the window (`20_memory.md` R65). -/
  | inadmissibleOffset (off : Nat)
  deriving DecidableEq, Repr

/-- The decoder of R93: the whole word selects the command; every other word is reserved. -/
def decode (w : Word) : Except Rejected Instr :=
  if w = 0x00000000#32 then .ok .nop
  else if w = 0x00000001#32 then .ok .generate
  else if w = 0x00000002#32 then .ok .zeroize
  else .error (.reservedCommand w)

/-- The command word of a command: `OPCODE` in bits 7:0 and `ZERO` in bits 31:8 (R92, R94). -/
def encode (i : Instr) : Word :=
  0#24 ++ match i with
    | .nop => 0x00#8
    | .generate => 0x01#8
    | .zeroize => 0x02#8

/-- A row of the command table (R94): a word `w` selects it when `w & mask = match`. -/
structure TableRow where
  command : Instr
  matchWord : Word
  mask : Word
  deriving DecidableEq, Repr

/-- The command table of `30_encoding.md` R94 and `opcode_table.json`. -/
def commandTable : List TableRow :=
  [⟨.nop, 0x00000000, 0xFFFFFFFF⟩, ⟨.generate, 0x00000001, 0xFFFFFFFF⟩, ⟨.zeroize, 0x00000002, 0xFFFFFFFF⟩]

/-- A word selects a row (R94). -/
def TableRow.selectedBy (r : TableRow) (w : Word) : Bool := w &&& r.mask == r.matchWord

/-- A host transaction given by its byte offset: admitted by R65, then `addr` = offset / 4 (R91). -/
def transactionAt (we : Bool) (off : Nat) (wdata : Word) : Except Rejected Machine.Txn :=
  if admittedOffset off then .ok ⟨we, BitVec.ofNat 6 (off / 4), wdata⟩ else .error (.inadmissibleOffset off)

/-- What the decoder reads from the low `nbits` bits of `w`: a command is one 32-bit word (R92, R98). -/
def decodeTableWord (nbits w : Nat) : Option Instr :=
  if nbits ≤ 32 then
    match decode (BitVec.ofNat 32 (w % 2 ^ nbits)) with
    | .ok i => some i
    | .error _ => none
  else none

end Sys2Proof
end

