-- ==== Sys2Proof/Machine/State.lean ====
section
/-! DEFINITION. The state: the tuple of `10_state.md` R20, the environment's pending events, the values reads
returned; the reasons a step stops; the state after reset (`10_state.md` R46). -/

namespace Sys2Proof.Machine

/-- The engine's only control state (`10_state.md` R21). -/
inductive Phase where
  | idle
  | run
  deriving DecidableEq, Repr

/-- The error kinds (`60_exceptions.md` R190). `digestTooShort` is kept and never raised (R193;
DESIGN CHOICE, safe, log entry 14). -/
inductive ErrorKind where
  | invalidKey
  | invalidTimestamp
  | digestTooShort
  | keyError
  deriving DecidableEq, Repr

/-- Key memory as cells (byte index, byte), strictly rising, none of them 0x00: an unlisted byte reads 0x00, the
reset contents (R46; DESIGN CHOICE, safe, log entry 6). -/
abbrev Memory := List Host.Cell

/-- The six decimal digits `CODE_D[0..5]`, index 0 leftmost (`10_state.md` R30). -/
abbrev Digits := Vector (BitVec 4) 6

/-- The complete architectural state (`10_state.md` R20). -/
structure Engine where
  /-- `phase` (R21); the host sees it as `STATUS.BUSY` (R35). -/
  phase : Phase
  /-- `KEY[0..63]` (R26). -/
  key : Memory
  /-- `KEYLEN` (R28). -/
  keyLen : BitVec 8
  /-- `TIME`, whole seconds since the epoch, two's complement (R27). -/
  time : BitVec 64
  /-- `IE_DONE` (R29). -/
  ieDone : Bool
  /-- `IE_ERR` (R29). -/
  ieErr : Bool
  /-- `DONE` (R36). -/
  done : Bool
  /-- `ERR` (R37). -/
  err : Bool
  /-- `ERRCODE` (R37). -/
  errCode : BitVec 3
  /-- `LOCKERR` (R38). -/
  lockErr : Bool
  /-- `ILLCMD` (R39). -/
  illCmd : Bool
  /-- `CODE_VALID` (R30). -/
  codeValid : Bool
  /-- `CODE_D[0..5]` (R30). -/
  codeD : Digits
  deriving DecidableEq, Repr

/-- The machine: the engine, and two fields of the MODEL's own (DESIGN CHOICE, safe, log entries 1 and 3). -/
structure State where
  /-- The architectural state of R20. -/
  engine : Engine
  /-- MODEL's own: what the environment does next, oldest first (R75, R99). -/
  script : List Event
  /-- MODEL's own: the values host reads returned, newest first (R13). No rule reads it. -/
  reads : List Word
  deriving DecidableEq, Repr

/-- Why the machine faults. -/
inductive Fault where
  /-- Raised by completion in a state with `phase = RUN` whose inputs lie outside the domain of `generate_code`
  (`44_commands.md` R174). No state reachable from reset is one (`10_state.md` R44 item (a)). Safe (DESIGN CHOICE, log
  entry 4). -/
  | completionOutsideDomain
  deriving DecidableEq, Repr

/-- Why a step is refused. -/
inductive Refusal where
  /-- Raised by exec for a command without a meaning; no arm of this model raises it. Safe. -/
  | notModelled (mnemonic : String)
  /-- Raised by a `run` event while `phase = IDLE`: completion is enabled exactly when `phase = RUN`
  (`44_commands.md` R175, `30_encoding.md` R99). Safe (DEDUCED, log entry 5). -/
  | completionNotEnabled
  /-- Raised by a host transaction at a byte offset that is not admitted (`20_memory.md` R65). Safe (DEDUCED, log entry 8). -/
  | inadmissibleOffset (off : Nat)
  deriving DecidableEq, Repr

/-- No code: all six digits 0 (R30). -/
def Digits.none : Digits := Vector.replicate 6 0

/-- The engine after reset (`10_state.md` R46, `70_reset_and_hazards.md` R220). -/
def Engine.reset : Engine where
  phase := .idle
  key := []
  keyLen := 0
  time := 0
  ieDone := false
  ieErr := false
  done := false
  err := false
  errCode := 0
  lockErr := false
  illCmd := false
  codeValid := false
  codeD := Digits.none

/-- The machine right after reset: the engine of R46, no event pending, no value read. -/
def State.reset : State where
  engine := Engine.reset
  script := []
  reads := []

end Sys2Proof.Machine
end

