-- ==== Sys2Proof/Machine/Ops.lean ====
section
/-! DEFINITION. The named operations over bytes, key memory and the engine: reading and writing a key byte, dropping a
locked write, clearing a result, error entry and its return, erasing the inputs, reset. -/

namespace Sys2Proof.Machine

/-- `rotl32(x, n)` for 0 < n < 32 (`00_scope.md` R9). -/
def rotl32 (x : Word) (n : Nat) : Word := (x <<< n) ||| (x >>> (32 - n))

/-- `be_32` of four bytes, the first in bits 31:24 (`00_scope.md` R8). -/
def be32 (b0 b1 b2 b3 : Byte) : Word := b0 ++ b1 ++ b2 ++ b3

/-- `bytes_be_32`: the four bytes of a word, most significant first (`00_scope.md` R8). -/
def bytesBE32 (v : Word) : Vector Byte 4 := Vector.ofFn fun j => (v >>> (8 * (3 - j.val))).setWidth 8

/-- `bytes_be_64`: the eight bytes of a 64-bit number, most significant first (`00_scope.md` R8). -/
def bytesBE64 (v : BitVec 64) : Vector Byte 8 := Vector.ofFn fun j => (v >>> (8 * (7 - j.val))).setWidth 8

/-- `KEY[a]`; an unlisted byte is 0x00 (`10_state.md` R46). -/
def Memory.read : Memory → Nat → Byte
  | [], _ => 0#8
  | (b, v) :: m, a => if a = b then v else Memory.read m a

/-- `KEY[a] <- v`, keeping the cells in rising order and listing no 0x00. -/
def Memory.write : Memory → Nat → Byte → Memory
  | [], a, v => if v = 0#8 then [] else [(a, v)]
  | (b, w) :: m, a, v =>
    if a < b then (if v = 0#8 then (b, w) :: m else (a, v) :: (b, w) :: m)
    else if a = b then (if v = 0#8 then m else (a, v) :: m)
    else (b, w) :: Memory.write m a v

/-- The cells from byte index `lo` on are in canonical form and inside the 64 bytes of key memory. -/
def Memory.wfFrom (lo : Nat) : Memory → Bool
  | [] => true
  | (a, v) :: m => decide (lo ≤ a) && decide (a < 64) && v != 0#8 && Memory.wfFrom (a + 1) m

/-- The canonical form: addresses strictly rising and below 64, no cell 0x00. -/
def Memory.wf (m : Memory) : Bool := Memory.wfFrom 0 m

/-- `BUSY` (`10_state.md` R35). -/
def Engine.busy (e : Engine) : Bool := e.phase == .run

/-- A write to a locked register in RUN: dropped, `LOCKERR <- 1` and nothing else (`10_state.md` R45). -/
def Engine.dropWrite (e : Engine) : Engine := { e with lockErr := true }

/-- A reserved command word in IDLE: `ILLCMD <- 1` and nothing else (`30_encoding.md` R96). -/
def Engine.flagReserved (e : Engine) : Engine := { e with illCmd := true }

/-- The code cleared: no code, all digits 0 (`10_state.md` R30). -/
def Engine.clearCode (e : Engine) : Engine := { e with codeValid := false, codeD := Digits.none }

/-- Return from an error: `ERR` and `ERRCODE` cleared together (`60_exceptions.md` R198, `10_state.md` R37). -/
def Engine.clearError (e : Engine) : Engine := { e with err := false, errCode := 0 }

/-- `DONE` cleared; the code is kept (`10_state.md` R36). -/
def Engine.clearDone (e : Engine) : Engine := { e with done := false }

/-- The previous result discarded: `DONE`, `ERR`, `ERRCODE` and the code (`44_commands.md` R172, R173). -/
def Engine.clearResult (e : Engine) : Engine := e.clearDone.clearError.clearCode

/-- The numeric code of an error kind (`60_exceptions.md` R190). -/
def ErrorKind.code : ErrorKind → BitVec 3
  | .invalidKey => 1
  | .invalidTimestamp => 2
  | .digestTooShort => 3
  | .keyError => 4

/-- Error entry, `raise E` (`60_exceptions.md` R196): `ERR <- 1`, `ERRCODE <- code(E)`. Nothing is saved and no control
transfer takes place. -/
def Engine.raise (e : Engine) (k : ErrorKind) : Engine := { e with err := true, errCode := k.code }

/-- Key, key length and time erased (`44_commands.md` R173). -/
def Engine.eraseInputs (e : Engine) : Engine := { e with key := [], keyLen := 0, time := 0 }

/-- A change of the engine, with the environment's fields kept. -/
def State.onEngine (s : State) (f : Engine → Engine) : State := { s with engine := f s.engine }

/-- A command written to `CMD`: in IDLE it has its effect; in RUN it is dropped (`44_commands.md` R178;
DEDUCED, safe, log entry 13). -/
def State.command (s : State) (effect : Engine → Engine) : Host.Outcome State Fault Refusal :=
  if s.engine.busy then .next (s.onEngine Engine.dropWrite) else .next (s.onEngine effect)

/-- The reset step (`70_reset_and_hazards.md` R220): every state element to its reset value. -/
def State.resetStep (s : State) : State := s.onEngine fun _ => Engine.reset

end Sys2Proof.Machine
end

