-- ==== Sys2Proof/Machine/Operands.lean ====
section
/-! DEFINITION. The input registers as operands (`30_encoding.md` R95): `TIME` and its halves, `KEYLEN`, the key words
and the key they hold. -/

namespace Sys2Proof.Machine

/-- `TIME_HI` = `TIME[63:32]` (`10_state.md` R27). -/
def Engine.timeHi (e : Engine) : Word := e.time.extractLsb' 32 32

/-- `TIME_LO` = `TIME[31:0]` (`10_state.md` R27). -/
def Engine.timeLo (e : Engine) : Word := e.time.extractLsb' 0 32

/-- A write of `TIME_HI` (`20_memory.md` R68). -/
def Engine.writeTimeHi (e : Engine) (w : Word) : Engine := { e with time := w ++ e.timeLo }

/-- A write of `TIME_LO` (`20_memory.md` R68). -/
def Engine.writeTimeLo (e : Engine) (w : Word) : Engine := { e with time := e.timeHi ++ w }

/-- A write of `KEYLEN`: bits 31:8 are ignored (`10_state.md` R28). -/
def Engine.writeKeyLen (e : Engine) (w : Word) : Engine := { e with keyLen := w.extractLsb' 0 8 }

/-- What `KEYLEN` reads: bits 31:8 are 0 (`10_state.md` R28). -/
def Engine.keyLenWord (e : Engine) : Word := 0#24 ++ e.keyLen

/-- A write of `KEYWj`: `KEY[4j] <- w[31:24]` down to `KEY[4j+3] <- w[7:0]` (`10_state.md` R26, `20_memory.md` R62). -/
def Engine.writeKeyWord (e : Engine) (j : BitVec 4) (w : Word) : Engine :=
  { e with
    key := (((e.key.write (4 * j.toNat) (w.extractLsb' 24 8)).write (4 * j.toNat + 1) (w.extractLsb' 16 8)).write
      (4 * j.toNat + 2) (w.extractLsb' 8 8)).write (4 * j.toNat + 3) (w.extractLsb' 0 8) }

/-- `KEY[0..KEYLEN]`, the first `KEYLEN` bytes of key memory (`30_encoding.md` R95); valid only if
`KEYLEN ≤ KEY_MAX`. -/
def Engine.keyBytes (e : Engine) : List Byte := (List.range e.keyLen.toNat).map fun i => e.key.read i

/-- `TIME[63]`: a time before the epoch (`40_counter.md` R112). -/
def Engine.beforeEpoch (e : Engine) : Bool := e.time.msb

end Sys2Proof.Machine
end

