-- ==== Sys2Proof/Machine/Commands.lean ====
section
/-! DEFINITION. The meanings of the three commands (`44_commands.md` R171, R172, R173): what a write of the command's
word to `CMD` does. -/

namespace Sys2Proof.Machine

/-- NOP: no state element changes (R171). -/
def execNop (s : State) : Host.Outcome State Fault Refusal := s.command id

/-- The first error in the order of R195, if any: empty key, time before the epoch, key longer than `KEY_MAX`. -/
def Engine.validate (e : Engine) : Option ErrorKind :=
  if e.keyLen = 0 then some .invalidKey
  else if e.beforeEpoch then some .invalidTimestamp
  else if Config.keyMax < e.keyLen.toNat then some .keyError
  else none

/-- GENERATE, acceptance: clear the old result, validate, then report the error or start (R172). -/
def Engine.accept (e : Engine) : Engine :=
  match e.validate with
  | some k => e.clearResult.raise k
  | none => { e.clearResult with phase := .run }

/-- GENERATE (R172). -/
def execGenerate (s : State) : Host.Outcome State Fault Refusal := s.command Engine.accept

/-- ZEROIZE: inputs and results to 0; `IE_*`, `LOCKERR`, `ILLCMD` kept (R173). -/
def execZeroize (s : State) : Host.Outcome State Fault Refusal := s.command fun e => e.eraseInputs.clearResult

end Sys2Proof.Machine
end

