-- ==== Sys2Proof/Machine/Dispatch.lean ====
section
/-! DEFINITION. One arm per command. -/

namespace Sys2Proof.Machine

def exec (i : Instr) (s : State) : Host.Outcome State Fault Refusal :=
  match i with
  | .nop => Sys2Proof.Machine.execNop s
  | .generate => Sys2Proof.Machine.execGenerate s
  | .zeroize => Sys2Proof.Machine.execZeroize s

end Sys2Proof.Machine
end

