-- ==== Sys2Proof/Machine/Flags.lean ====
section
/-! DEFINITION. The status and result registers as words: `STATUS`, `IRQ_EN`, the three views of the code, the constant
registers, and the interrupt line. -/

namespace Sys2Proof.Machine

/-- What `STATUS` reads (`10_state.md` R25, `20_memory.md` R67). -/
def Engine.statusWord (e : Engine) : Word :=
  0#21 ++ e.errCode ++ 0#3 ++ BitVec.ofBool e.illCmd ++ BitVec.ofBool e.lockErr ++ BitVec.ofBool e.err ++
    BitVec.ofBool e.done ++ BitVec.ofBool e.busy

/-- A write of `STATUS`: each of bits 1 to 4 that is 1 clears its flag, bit 2 together with `ERRCODE`; the other bits
are ignored (`10_state.md` R25). -/
def Engine.writeStatus (e : Engine) (w : Word) : Engine :=
  { e with
    done := e.done && !w.getLsbD 1
    err := e.err && !w.getLsbD 2
    errCode := if w.getLsbD 2 then 0 else e.errCode
    lockErr := e.lockErr && !w.getLsbD 3
    illCmd := e.illCmd && !w.getLsbD 4 }

/-- What `IRQ_EN` reads (`10_state.md` R29). -/
def Engine.irqEnWord (e : Engine) : Word := 0#30 ++ BitVec.ofBool e.ieErr ++ BitVec.ofBool e.ieDone

/-- A write of `IRQ_EN`: bits 31:2 are ignored (`10_state.md` R29). -/
def Engine.writeIrqEn (e : Engine) (w : Word) : Engine := { e with ieDone := w.getLsbD 0, ieErr := w.getLsbD 1 }

/-- The `irq` output (`60_exceptions.md` R203). -/
def Engine.irq (e : Engine) : Bool := (e.done && e.ieDone) || (e.err && e.ieErr)

/-- What `CODE_BCD` reads (`10_state.md` R31). -/
def Engine.codeBcdWord (e : Engine) : Word :=
  BitVec.ofBool e.codeValid ++ 0#7 ++ e.codeD[0] ++ e.codeD[1] ++ e.codeD[2] ++ e.codeD[3] ++ e.codeD[4] ++ e.codeD[5]

/-- The ASCII character of a digit, `0x30 + d` (`10_state.md` R32, `43_format.md` R162). -/
def asciiDigit (d : BitVec 4) : Byte := 0x30 + d.setWidth 8

/-- What `CODE_ASCII0` reads: characters 0 to 3, or 0 with no code (`10_state.md` R32). -/
def Engine.codeAscii0Word (e : Engine) : Word :=
  if e.codeValid then
    be32 (asciiDigit e.codeD[0]) (asciiDigit e.codeD[1]) (asciiDigit e.codeD[2]) (asciiDigit e.codeD[3])
  else 0

/-- What `CODE_ASCII1` reads: characters 4 and 5, or 0 with no code (`10_state.md` R32). -/
def Engine.codeAscii1Word (e : Engine) : Word :=
  if e.codeValid then be32 (asciiDigit e.codeD[4]) (asciiDigit e.codeD[5]) 0 0 else 0

/-- What `STEP` reads: `STEP_SECONDS` (`10_state.md` R33). -/
def stepWord : Word := BitVec.ofNat 32 Config.stepSeconds

/-- What `CAPS` reads: `KEY_MAX` in bits 15:8, `DIGITS` in bits 7:0 (`10_state.md` R34). -/
def capsWord : Word := 0#16 ++ BitVec.ofNat 8 Config.keyMax ++ BitVec.ofNat 8 Config.digits

end Sys2Proof.Machine
end

