-- ==== Sys2Proof/Machine/Bus.lean ====
section
/-! DEFINITION. The two bus primitives: the host read (`20_memory.md` R67) and the host write (R68), and decoding of
what is written to `CMD` (`30_encoding.md` R93). -/

namespace Sys2Proof.Machine

/-- `MemRead` of a register: the value read, in any phase (R67). -/
def Engine.readReg (e : Engine) : Reg → Word
  | .cmd => 0
  | .status => e.statusWord
  | .irqEn => e.irqEnWord
  | .keyLen => e.keyLenWord
  | .timeHi => e.timeHi
  | .timeLo => e.timeLo
  | .codeBcd => e.codeBcdWord
  | .codeAscii0 => e.codeAscii0Word
  | .codeAscii1 => e.codeAscii1Word
  | .step => stepWord
  | .caps => capsWord
  | .keyW _ => 0
  | .reserved _ => 0

/-- What a write does to a register other than `CMD` when it is not locked (R68); read-only and reserved words ignore
it (R66). `CMD` stores nothing (`10_state.md` R24): its effect is `execCommand`. -/
def Engine.writeReg (e : Engine) (r : Reg) (w : Word) : Engine :=
  match r with
  | .cmd => e
  | .status => e.writeStatus w
  | .irqEn => e.writeIrqEn w
  | .keyLen => e.writeKeyLen w
  | .timeHi => e.writeTimeHi w
  | .timeLo => e.writeTimeLo w
  | .codeBcd => e
  | .codeAscii0 => e
  | .codeAscii1 => e
  | .step => e
  | .caps => e
  | .keyW j => e.writeKeyWord j w
  | .reserved _ => e

/-- `exec_command(w)` (`30_encoding.md` R93): the command `w` selects, or `ILLCMD <- 1` for a reserved word (R96). -/
def execCommand (w : Word) (s : State) : Host.Outcome State Fault Refusal :=
  match decode w with
  | .ok i => exec i s
  | .error _ => .next (s.onEngine Engine.flagReserved)

/-- `MemWrite` (R68): a locked register in RUN drops the write, `CMD` executes a command, the rest store. -/
def hostWrite (a : WordAddr) (w : Word) (s : State) : Host.Outcome State Fault Refusal :=
  if (Reg.ofAddr a).locked && s.engine.busy then .next (s.onEngine Engine.dropWrite)
  else
    match Reg.ofAddr a with
    | .cmd => execCommand w s
    | r => .next (s.onEngine fun e => e.writeReg r w)

/-- `MemRead` (R67): no state element changes; the value read is what the host observes (R13). -/
def hostRead (a : WordAddr) (s : State) : State := { s with reads := s.engine.readReg (Reg.ofAddr a) :: s.reads }

/-- A bus transaction (`30_encoding.md` R91). -/
def hostAccess (t : Txn) (s : State) : Host.Outcome State Fault Refusal :=
  if t.we then hostWrite t.addr t.wdata s else .next (hostRead t.addr s)

/-- A host transaction given by its byte offset, `MemRead(off, 4)` or `MemWrite(off, 4, w)`: an offset that is not
admitted has no step (R65). -/
def hostAccessAt (we : Bool) (off : Nat) (w : Word) (s : State) : Host.Outcome State Fault Refusal :=
  match transactionAt we off w with
  | .ok t => hostAccess t s
  | .error _ => .refused (.inadmissibleOffset off)

end Sys2Proof.Machine
end

