-- ==== Sys2Proof/Machine/Counter.lean ====
section
/-! DEFINITION. Stage 1, counter derivation (`40_counter.md`). -/

namespace Sys2Proof.Machine

/-- `TimeCounter = TIME div STEP_SECONDS`, unsigned 64-bit floor division (R111). Applied only to a time that is not
before the epoch (R112). -/
def counter (t : BitVec 64) : BitVec 64 := t / BitVec.ofNat 64 Config.stepSeconds

/-- CounterBytes: the counter as 8 bytes, most significant first (R115). -/
def counterBytes (c : BitVec 64) : Vector Byte 8 := bytesBE64 c

end Sys2Proof.Machine
end

