-- ==== Sys2Proof/Machine/Format.lean ====
section
/-! DEFINITION. Stage 4, the code formatter (`43_format.md`). -/

namespace Sys2Proof.Machine

/-- `digits_of(value mod 1000000)`: `d[k] = (v div 10^(5-k)) mod 10` for any 32-bit value (R161, R165). -/
def formatCode (value : Word) : Digits :=
  Vector.ofFn fun k => BitVec.ofNat 4 (value.toNat % Config.modulus / 10 ^ (5 - k.val) % 10)

end Sys2Proof.Machine
end

