-- ==== Sys2Proof/Machine/Sha1.lean ====
section
/-! DEFINITION. SHA-1 (`41_hmac_sha1.md` R121 to R127), total also where the rules define nothing (DESIGN CHOICE, safe,
log entry 16). -/

namespace Sys2Proof.Machine

/-- The 20 bytes of a digest, index 0 first (R127). -/
abbrev Digest := Vector Byte 20

/-- A hash value `(H0, H1, H2, H3, H4)`, also the working words `(a, b, c, d, e)` (R126). -/
structure Hash where
  h0 : Word
  h1 : Word
  h2 : Word
  h3 : Word
  h4 : Word
  deriving DecidableEq, Repr

/-- The initial hash value (R121). -/
def Hash.initial : Hash := ⟨0x67452301, 0xEFCDAB89, 0x98BADCFE, 0x10325476, 0xC3D2E1F0⟩

/-- The smallest `z` with `(L + 1 + z) mod 64 = 56` (R122). -/
def padZeros (L : Nat) : Nat := (119 - L % 64) % 64

/-- `pad(M)` (R122). -/
def pad (m : List Byte) : List Byte :=
  m ++ [0x80] ++ List.replicate (padZeros m.length) 0 ++ (bytesBE64 (BitVec.ofNat 64 (8 * m.length))).toList

/-- The first `n` blocks of 64 bytes, in order (R123). -/
def blocks : Nat → List Byte → List (List Byte)
  | 0, _ => []
  | n + 1, m => m.take Config.blockBytes :: blocks n (m.drop Config.blockBytes)

/-- Bytes read as big-endian words, four bytes each (R123). -/
def wordsOf : List Byte → List Word
  | b0 :: b1 :: b2 :: b3 :: rest => be32 b0 b1 b2 b3 :: wordsOf rest
  | _ => []

/-- The next schedule word from the words so far, newest first: `W[t-3]`, `W[t-8]`, `W[t-14]`, `W[t-16]` (R124). -/
def nextWord (ws : List Word) : Word :=
  rotl32 (ws.getD 2 0 ^^^ ws.getD 7 0 ^^^ ws.getD 13 0 ^^^ ws.getD 15 0) 1

/-- `n` further schedule words, newest first (R124). -/
def extendSchedule : Nat → List Word → List Word
  | 0, ws => ws
  | n + 1, ws => extendSchedule n (nextWord ws :: ws)

/-- `W[0..79]` of a block (R123, R124). -/
def schedule (block : List Byte) : List Word := (extendSchedule 64 (wordsOf block).reverse).reverse

/-- `f_t(b, c, d)` (R125). -/
def roundFunction (t : Nat) (b c d : Word) : Word :=
  if t < 20 then (b &&& c) ||| (~~~b &&& d)
  else if t < 40 then b ^^^ c ^^^ d
  else if t < 60 then (b &&& c) ||| (b &&& d) ||| (c &&& d)
  else b ^^^ c ^^^ d

/-- `K_t` (R125). -/
def roundConstant (t : Nat) : Word :=
  if t < 20 then 0x5A827999 else if t < 40 then 0x6ED9EBA1 else if t < 60 then 0x8F1BBCDC else 0xCA62C1D6

/-- One round of the compression function (R126). -/
def sha1Round (t : Nat) (w : Word) (v : Hash) : Hash where
  h0 := rotl32 v.h0 5 + roundFunction t v.h1 v.h2 v.h3 + v.h4 + roundConstant t + w
  h1 := v.h0
  h2 := rotl32 v.h1 30
  h3 := v.h2
  h4 := v.h3

/-- The rounds from round `t` on, one per schedule word (R126). -/
def sha1Rounds : Nat → List Word → Hash → Hash
  | _, [], v => v
  | t, w :: ws, v => sha1Rounds (t + 1) ws (sha1Round t w v)

/-- Word-wise addition modulo 2^32 (R126). -/
def Hash.add (x y : Hash) : Hash := ⟨x.h0 + y.h0, x.h1 + y.h1, x.h2 + y.h2, x.h3 + y.h3, x.h4 + y.h4⟩

/-- `compress(H, B)` (R126). -/
def compress (h : Hash) (block : List Byte) : Hash := h.add (sha1Rounds 0 (schedule block) h)

/-- The hash value after all blocks of `pad(M)` (R127). -/
def sha1Hash (m : List Byte) : Hash :=
  (blocks ((pad m).length / Config.blockBytes) (pad m)).foldl compress Hash.initial

/-- The 20 bytes of a hash value (R127). -/
def Hash.digest (h : Hash) : Digest :=
  bytesBE32 h.h0 ++ bytesBE32 h.h1 ++ bytesBE32 h.h2 ++ bytesBE32 h.h3 ++ bytesBE32 h.h4

/-- `sha1(M)` (R127). -/
def sha1 (m : List Byte) : Digest := (sha1Hash m).digest

end Sys2Proof.Machine
end

