-- ==== Sys2Proof/Machine/Hmac.lean ====
section
/-! DEFINITION. HMAC with SHA-1 (`41_hmac_sha1.md` R130 to R133). -/

namespace Sys2Proof.Machine

/-- `K0`: the key brought to 64 bytes; a key longer than a block is hashed first (R131). -/
def prepareKey (key : List Byte) : List Byte :=
  let k := if Config.blockBytes < key.length then (sha1 key).toList else key
  k ++ List.replicate (Config.blockBytes - k.length) 0

/-- Byte-wise exclusive or with one pad byte (R132). -/
def xorPad (k0 : List Byte) (p : Byte) : List Byte := k0.map fun b => b ^^^ p

/-- The inner hash (R132). -/
def hmacInner (key msg : List Byte) : Digest := sha1 (xorPad (prepareKey key) 0x36 ++ msg)

/-- `hmac_sha1(K, m)` (R132). -/
def hmacSha1 (key msg : List Byte) : Digest := sha1 (xorPad (prepareKey key) 0x5C ++ (hmacInner key msg).toList)

end Sys2Proof.Machine
end

