-- ==== Sys2Proof/Machine/Truncate.lean ====
section
/-! DEFINITION. Stage 3, dynamic truncation (`42_truncate.md`). The digest has exactly 20 bytes by its type, which is
how DigestTooShort is discharged (R155). -/

namespace Sys2Proof.Machine

/-- `offset = Digest[19] & 0x0F` (R151). -/
def truncOffset (d : Digest) : BitVec 4 := d[19].extractLsb' 0 4

/-- `P = be_32(Digest[offset .. offset+4])` (R152). -/
def truncWord (d : Digest) : Word :=
  let o := (truncOffset d).toNat
  have h : o < 16 := (truncOffset d).isLt
  be32 d[o] d[o + 1] d[o + 2] d[o + 3]

/-- `TruncatedValue = P & 0x7FFFFFFF` (R153). -/
def truncatedValue (d : Digest) : Word := truncWord d &&& 0x7FFFFFFF

/-- `Reduced = TruncatedValue mod 1000000`, unsigned (R154). -/
def reduced (d : Digest) : Word := truncatedValue d % BitVec.ofNat 32 Config.modulus

end Sys2Proof.Machine
end

