-- ==== Sys2Proof/Machine/Pipeline.lean ====
section
/-! DEFINITION. The function GENERATE computes (`44_commands.md` R174) and the engine's completion step (R175). -/

namespace Sys2Proof.Machine

/-- The digest of a key and a time: stages 1 and 2 (R174, `41_hmac_sha1.md` R133). -/
def codeDigest (key : List Byte) (t : BitVec 64) : Digest := hmacSha1 key (counterBytes (counter t)).toList

/-- `generate_code(key, t)`, for a key of 1 to `KEY_MAX` bytes and a time not before the epoch (R174). -/
def generateCode (key : List Byte) (t : BitVec 64) : Digits := formatCode (reduced (codeDigest key t))

/-- The inputs lie in the domain of R174: `1 ≤ KEYLEN ≤ KEY_MAX` and `TIME[63] = 0`. -/
def Engine.inputsValid (e : Engine) : Bool :=
  decide (1 ≤ e.keyLen.toNat) && decide (e.keyLen.toNat ≤ Config.keyMax) && !e.beforeEpoch

/-- The writes of completion, all in one step (R175). -/
def Engine.publish (e : Engine) : Engine :=
  { e with codeD := generateCode e.keyBytes e.time, codeValid := true, done := true, phase := .idle }

/-- Completion: enabled exactly when `phase = RUN` (R175). -/
def completion (s : State) : Host.Outcome State Fault Refusal :=
  match s.engine.phase with
  | .idle => .refused .completionNotEnabled
  | .run => if s.engine.inputsValid then .next (s.onEngine Engine.publish) else .fault .completionOutsideDomain

end Sys2Proof.Machine
end

