-- ==== Sys2Proof/Machine/Agents.lean ====
section
/-! DEFINITION. The steps of the three agents (`00_scope.md` R11, `20_memory.md` R75). -/

namespace Sys2Proof.Machine

/-- What is pending after a read of `poll` (`30_encoding.md` R100): nothing more of it when the value read had
`BUSY = 0`; else the next read, with the engine's completion before it once the latency is over. -/
def afterPoll (more : Nat) (busy : Bool) (rest : List Event) : List Event :=
  if busy then
    match more with
    | 0 => .run :: .poll 0 :: rest
    | n + 1 => .poll n :: rest
  else rest

/-- One read of `poll`: the host reads `STATUS` and goes by bit 0 of the value read (`30_encoding.md` R100). -/
def pollRead (more : Nat) (s : State) : State :=
  { hostRead Reg.status.addr s with
    script := afterPoll more ((s.engine.readReg .status).getLsbD 0) s.script }

/-- One atomic step of the agent the event names (R75). -/
def takeEvent (ev : Event) (s : State) : Host.Outcome State Fault Refusal :=
  match ev with
  | .access t => hostAccess t s
  | .run => completion s
  | .reset => .next s.resetStep
  | .poll more => .next (pollRead more s)

/-- The environment has nothing more to do: in RUN the engine completes (`44_commands.md` R179), in IDLE nothing
happens (DESIGN CHOICE, unsafe for step counts, log entry 2). -/
def engineTurn (s : State) : Host.Outcome State Fault Refusal :=
  match s.engine.phase with
  | .run => completion s
  | .idle => .next s

/-- The host's pending write of a command word to `CMD`, before everything else pending. -/
def State.withCommand (s : State) (w : Word) : State :=
  { s with script := .access ⟨true, Reg.cmd.addr, w⟩ :: s.script }

end Sys2Proof.Machine
end

