-- ==== Sys2Proof/Machine/Step.lean ====
section
/-! DEFINITION. One step of the machine: the oldest pending event is taken, or the engine's turn when none is. -/

namespace Sys2Proof.Machine

/-- One step (`20_memory.md` R75). -/
def step (s : State) : Host.Outcome State Fault Refusal :=
  match s.script with
  | [] => engineTurn s
  | ev :: rest => takeEvent ev { s with script := rest }

/-- `s` with the command word of the low `nbits` bits of `w` as the host's next write to `CMD`. -/
def State.withFetchWord (s : State) (nbits w : Nat) : State := s.withCommand (BitVec.ofNat 32 (w % 2 ^ nbits))

end Sys2Proof.Machine
end

