-- ==== Sys2Proof/Machine/Pins.lean ====
section
/-! DEFINITION. The pin-level view (`10_state.md` R47): one clock cycle as a composition of the atomic steps
(DEDUCED, log entry 7: unsafe for the outputs in the first cycle of `rst`). -/

namespace Sys2Proof.Machine

/-- The input pins in one cycle (R47). -/
structure Pins where
  rst : Bool
  sel : Bool
  we : Bool
  addr : WordAddr
  wdata : Word
  deriving DecidableEq, Repr

/-- The bus access a cycle carries: none when `sel` is 0. -/
def Pins.busAccess (p : Pins) (s : State) : Host.Outcome State Fault Refusal :=
  if p.sel then hostAccess ⟨p.we, p.addr, p.wdata⟩ s else .next s

/-- One rising edge of `clk`. `fires` says whether completion falls in this cycle. Reset has priority over everything
(`70_reset_and_hazards.md` R220); a host access and completion in one cycle act in this order (`20_memory.md` R79). -/
def clockCycle (p : Pins) (fires : Bool) (s : State) : Host.Outcome State Fault Refusal :=
  if p.rst then .next s.resetStep
  else
    match p.busAccess s with
    | .next t => if fires then completion t else .next t
    | .fault r => .fault r
    | .refused r => .refused r

/-- `rdata` in a cycle that carries a read (R47): combinational from the state; the reset values while `rst` is high
(R220). -/
def rdataPin (p : Pins) (s : State) : Option Word :=
  if p.sel && !p.we then some ((if p.rst then Engine.reset else s.engine).readReg (Reg.ofAddr p.addr)) else none

/-- The `irq` pin (`60_exceptions.md` R203); 0 while `rst` is high (R220). -/
def irqPin (p : Pins) (s : State) : Bool := !p.rst && s.engine.irq

end Sys2Proof.Machine
end

