-- ==== Sys2Proof/Machine/Script.lean ====
section
/-! DEFINITION. The script notation and its pseudo-operations as lists of events (`30_encoding.md` R99, R100). -/

namespace Sys2Proof.Machine

/-- `wr NAME, value` (R99). -/
def wr (r : Reg) (value : Word) : Event := .access ⟨true, r.addr, value⟩

/-- `rd NAME` (R99). -/
def rd (r : Reg) : Event := .access ⟨false, r.addr, 0⟩

/-- `nop` (R100). -/
def scriptNop : List Event := [wr .cmd 0x00000000]

/-- `generate` (R100). -/
def scriptGenerate : List Event := [wr .cmd 0x00000001]

/-- `zeroize` (R100). -/
def scriptZeroize : List Event := [wr .cmd 0x00000002]

/-- `settime t` (R100). -/
def scriptSetTime (t : BitVec 64) : List Event := [wr .timeHi (t.extractLsb' 32 32), wr .timeLo (t.extractLsb' 0 32)]

/-- The key words of `loadkey` from word `j` on: four bytes a word, absent bytes written as 0x00 (R100). -/
def keyWordWrites : Nat → List Byte → List Event
  | _, [] => []
  | j, [b0] => [wr (.keyW (BitVec.ofNat 4 j)) (be32 b0 0 0 0)]
  | j, [b0, b1] => [wr (.keyW (BitVec.ofNat 4 j)) (be32 b0 b1 0 0)]
  | j, [b0, b1, b2] => [wr (.keyW (BitVec.ofNat 4 j)) (be32 b0 b1 b2 0)]
  | j, b0 :: b1 :: b2 :: b3 :: rest => wr (.keyW (BitVec.ofNat 4 j)) (be32 b0 b1 b2 b3) :: keyWordWrites (j + 1) rest

/-- `loadkey b0 b1 ... b(n-1)`, n ≤ 64: the key words, then `KEYLEN`; a longer key cannot be expressed (R100). -/
def scriptLoadKey (bytes : List Byte) : Option (List Event) :=
  if loadableKey bytes then some (keyWordWrites 0 bytes ++ [wr .keyLen (BitVec.ofNat 32 bytes.length)]) else none

/-- `poll`: `rd STATUS` until the value read has `BUSY = 0` (R100). It is one event, because how many reads it makes is
known only as they return; after an explicit `run` it makes the single read R100 speaks of. -/
def scriptPoll (more : Nat) : List Event := [.poll more]

/-- `ack` (R100). -/
def scriptAck : List Event := [wr .status 0x00000006]

/-- `totp` (R100). After a GENERATE that starts, its first read of `STATUS` finds `BUSY = 1`, for every argument.
`44_commands.md` R179 also lets the engine complete before that read; that run is
`scriptGenerate ++ [.run] ++ scriptPoll more` and the two reads, not a value of this function (DESIGN CHOICE, unsafe for
claims about how many reads `totp` makes, log entry 10). -/
def scriptTotp (more : Nat) : List Event := scriptGenerate ++ scriptPoll more ++ [rd .codeAscii0, rd .codeAscii1]

end Sys2Proof.Machine
end

