-- ==== Sys2Proof/Safety.lean ====
section
/-! DEFINITION. The invariant of `10_state.md` R44 and the canonical form of key memory. -/

namespace Sys2Proof.Machine

/-- R44 item (a): what holds while an operation is in flight. -/
abbrev Engine.RunClean (e : Engine) : Prop :=
  e.phase = .run →
    e.done = false ∧ e.err = false ∧ e.errCode = 0 ∧ e.codeValid = false ∧
      1 ≤ e.keyLen.toNat ∧ e.keyLen.toNat ≤ 64 ∧ e.time.msb = false

/-- R44 item (b): `ERR` and `ERRCODE` agree, and `ERRCODE` is 0, 1, 2 or 4. -/
abbrev Engine.ErrorAgrees (e : Engine) : Prop :=
  (e.err = true ↔ e.errCode ≠ 0) ∧ (e.errCode = 0 ∨ e.errCode = 1 ∨ e.errCode = 2 ∨ e.errCode = 4)

/-- R44 item (c): with no code every digit is 0, and every digit is at most 9. -/
abbrev Engine.DigitsDecimal (e : Engine) : Prop :=
  (e.codeValid = false → ∀ k : Fin 6, e.codeD[k] = 0) ∧ ∀ k : Fin 6, e.codeD[k].toNat ≤ 9

/-- R44 item (d): `DONE` comes with a code, `ERR` without one, never both. -/
abbrev Engine.OutcomeExclusive (e : Engine) : Prop :=
  (e.done = true → e.codeValid = true) ∧ (e.err = true → e.codeValid = false) ∧ ¬(e.done = true ∧ e.err = true)

/-- The invariant of R44, with key memory in canonical form. -/
abbrev Engine.Inv (e : Engine) : Prop :=
  e.RunClean ∧ e.ErrorAgrees ∧ e.DigitsDecimal ∧ e.OutcomeExclusive ∧ e.key.wf = true

/-- The invariant of the machine: that of its engine. -/
abbrev State.Inv (s : State) : Prop := s.engine.Inv

end Sys2Proof.Machine
end

