-- ==== Sys2Proof/Certificates/Slice0/Obligations.lean ====
section
/-! DEFINITION. The statements about the engine, from the numbered rules of `spec/`. -/

open Sys2Proof Sys2Proof.Machine

/-! ## Encodings and the window -/

/-- `30_encoding.md` R94, R96: a few command words written out, the reserved neighbours among them. -/
def Obligations.CommandWordsDecode : Prop :=
  decode 0b00000000000000000000000000000000#32 = .ok .nop ∧
  decode 0b00000000000000000000000000000001#32 = .ok .generate ∧
  decode 0b00000000000000000000000000000010#32 = .ok .zeroize ∧
  decode 0x00000003#32 = .error (.reservedCommand 0x00000003) ∧
  decode 0x00000101#32 = .error (.reservedCommand 0x00000101) ∧
  decode 0x80000001#32 = .error (.reservedCommand 0x80000001) ∧
  decode 0xFFFFFFFF#32 = .error (.reservedCommand 0xFFFFFFFF)

/-- `30_encoding.md` R93, R94, R96: decoding a command's word gives the command; a word that decodes is that command's
word; it selects that command's row of the table and no other; every other word is rejected as reserved. -/
def Obligations.DecodeAgreesWithEncodeAndTable : Prop :=
  (∀ i : Instr, i.wellFormed = true → decode (encode i) = .ok i) ∧
  (∀ (w : Word) (i : Instr), decode w = .ok i → w = encode i) ∧
  (∀ (w : Word) (i : Instr), decode w = .ok i ↔
    commandTable.filter (fun r => r.selectedBy w) = [⟨i, encode i, 0xFFFFFFFF⟩]) ∧
  (∀ w : Word, w ≠ 0x00000000 → w ≠ 0x00000001 → w ≠ 0x00000002 → decode w = .error (.reservedCommand w))

/-- `10_state.md` R23, R42: the window maps each word address to one register, no two addresses to the same, at the
offsets of the map. -/
def Obligations.WindowMapHasNoAlias : Prop :=
  (∀ a : WordAddr, (Reg.ofAddr a).addr = a) ∧
  (∀ a b : WordAddr, Reg.ofAddr a = Reg.ofAddr b → a = b) ∧
  Reg.ofAddr 0x00 = .cmd ∧ Reg.ofAddr 0x01 = .status ∧ Reg.ofAddr 0x02 = .irqEn ∧ Reg.ofAddr 0x03 = .keyLen ∧
  Reg.ofAddr 0x04 = .timeHi ∧ Reg.ofAddr 0x05 = .timeLo ∧ Reg.ofAddr 0x06 = .codeBcd ∧
  Reg.ofAddr 0x07 = .codeAscii0 ∧ Reg.ofAddr 0x08 = .codeAscii1 ∧ Reg.ofAddr 0x09 = .step ∧
  Reg.ofAddr 0x0A = .caps ∧
  (∀ j : BitVec 4, Reg.ofAddr (BitVec.ofNat 6 (0x10 + j.toNat)) = .keyW j) ∧
  (∀ a : WordAddr, (0x0B ≤ a.toNat ∧ a.toNat < 0x10) ∨ 0x20 ≤ a.toNat → Reg.ofAddr a = .reserved a)

/-- `20_memory.md` R65: an admitted byte offset is the transaction at word address offset / 4; any other offset has no
step. -/
def Obligations.OnlyAlignedOffsetsAreAdmitted : Prop :=
  ∀ (we : Bool) (off : Nat) (w : Word) (s : State),
    (off % 4 = 0 → off ≤ 0xFC →
      ∃ a : WordAddr, 4 * a.toNat = off ∧ hostAccessAt we off w s = hostAccess ⟨we, a, w⟩ s) ∧
    (off % 4 ≠ 0 ∨ 0xFC < off → hostAccessAt we off w s = .refused (.inadmissibleOffset off))

/-! ## Reset -/

/-- `10_state.md` R46: what reset leaves, what every register then reads, and that a GENERATE right after it fails
with InvalidKey. -/
def Obligations.ResetLeavesTheStatedValues : Prop :=
  State.reset.engine.phase = .idle ∧ (∀ i : Nat, State.reset.engine.key.read i = 0) ∧
  State.reset.engine.keyLen = 0 ∧ State.reset.engine.time = 0 ∧
  State.reset.engine.ieDone = false ∧ State.reset.engine.ieErr = false ∧
  State.reset.engine.done = false ∧ State.reset.engine.err = false ∧ State.reset.engine.errCode = 0 ∧
  State.reset.engine.lockErr = false ∧ State.reset.engine.illCmd = false ∧
  State.reset.engine.codeValid = false ∧ (∀ k : Fin 6, State.reset.engine.codeD[k] = 0) ∧
  (∀ a : WordAddr, State.reset.engine.readReg (Reg.ofAddr a) =
    if a = 0x09 then 0x0000001E else if a = 0x0A then 0x00004006 else 0x00000000) ∧
  State.reset.engine.irq = false ∧
  exec .generate State.reset = .next { State.reset with engine := { Engine.reset with err := true, errCode := 1 } }

/-- `70_reset_and_hazards.md` R220, R221: a reset step from any state, in either phase, gives the engine its reset
values; a running operation is abandoned without `DONE` or `ERR`. That the step keeps the values already read and takes
its event from the pending ones is the model's choice (log entries 1 and 3). -/
def Obligations.ResetStepFromAnyState : Prop :=
  ∀ (s : State) (rest : List Event), s.script = .reset :: rest →
    step s = .next { engine := State.reset.engine, script := rest, reads := s.reads }

/-! ## The invariant -/

/-- After reset the invariant of `10_state.md` R44 holds, and key memory has its canonical form, which is the model's
own (log entry 6). -/
def Obligations.ResetMeetsTheInvariant : Prop := State.reset.Inv

/-- Every step keeps the invariant of `10_state.md` R44 and the canonical form of key memory, which is the model's own
(log entry 6). -/
def Obligations.StepKeepsTheInvariant : Prop := ∀ s t : State, s.Inv → step s = .next t → t.Inv

/-- `10_state.md` R44: the invariants hold in every state reachable from reset, whatever the environment does. -/
def Obligations.ReachableStatesMeetTheInvariant : Prop :=
  ∀ (events : List Event) (n : Nat) (t : State), core.run n { State.reset with script := events } = .next t →
    t.engine.RunClean ∧ t.engine.ErrorAgrees ∧ t.engine.DigitsDecimal ∧ t.engine.OutcomeExclusive

/-- From every state that meets the invariant a step answers a next state, except a `run` event in IDLE, which is
refused by name (`44_commands.md` R175, `30_encoding.md` R99). -/
def Obligations.StepStopsOnlyOnRunWhileIdle : Prop :=
  ∀ s : State, s.Inv →
    (∃ t : State, step s = .next t) ∨
    (s.engine.phase = .idle ∧ s.script.head? = some .run ∧ step s = .refused .completionNotEnabled)

/-! ## The step -/

/-- `30_encoding.md` R93, `20_memory.md` R68: when the oldest pending event is a write to `CMD` of a word that decodes
to `i`, the step is `exec i` once the event is taken from the script. -/
def Obligations.StepRunsTheDecodedCommand : Prop :=
  ∀ (s : State) (w : Word) (rest : List Event) (i : Instr),
    s.script = .access ⟨true, 0x00, w⟩ :: rest → decode w = .ok i →
    step s = exec i { s with script := rest }

/-- `20_memory.md` R75, `44_commands.md` R179, `30_encoding.md` R100: a step is that of the agent the oldest event names;
of `poll` it is a read of `STATUS`, after which the loop is over when the value read has `BUSY = 0`, and else goes on,
after completion when no further read comes before it (log entry 10). With no event pending it is completion in RUN and
nothing in IDLE (the model's choice, log entry 2). -/
def Obligations.StepTakesTheOldestEvent : Prop :=
  (∀ (s : State) (t : Txn) (rest : List Event), s.script = .access t :: rest →
    step s = hostAccess t { s with script := rest }) ∧
  (∀ (s : State) (rest : List Event), s.script = .run :: rest → step s = completion { s with script := rest }) ∧
  (∀ (s : State) (more : Nat) (rest : List Event), s.script = .poll more :: rest →
    step s = .next { s with
      reads := s.engine.readReg .status :: s.reads
      script := if (s.engine.readReg .status).getLsbD 0 = false then rest
        else if more = 0 then .run :: .poll 0 :: rest else .poll (more - 1) :: rest }) ∧
  (∀ s : State, s.script = [] → s.engine.phase = .run → step s = completion s) ∧
  (∀ s : State, s.script = [] → s.engine.phase = .idle → step s = .next s)

/-! ## The commands -/

/-- `44_commands.md` R171: NOP in IDLE changes no state element; written in RUN it is a dropped command. -/
def Obligations.NopChangesNothing : Prop :=
  (∀ s : State, s.engine.phase = .idle → exec .nop s = .next s) ∧
  (∀ s : State, s.engine.phase = .run → exec .nop s = .next { s with engine := { s.engine with lockErr := true } })

/-- `44_commands.md` R172: GENERATE in IDLE on valid inputs discards the old result and starts; key memory, `KEYLEN`,
`TIME`, `IE_*`, `LOCKERR`, `ILLCMD` are not written. -/
def Obligations.GenerateStartsOnValidInputs : Prop :=
  ∀ s : State, s.engine.phase = .idle → 1 ≤ s.engine.keyLen.toNat → s.engine.keyLen.toNat ≤ 64 →
    s.engine.time.toNat < 2 ^ 63 →
    exec .generate s = .next { s with engine := { s.engine with
      phase := .run, done := false, err := false, errCode := 0, codeValid := false, codeD := Vector.replicate 6 0 } }

/-- `60_exceptions.md` R190 to R196: GENERATE in IDLE on invalid inputs reports the first error in the order
InvalidKey, InvalidTimestamp, KeyError; the old result is discarded, `phase` stays IDLE and no input is modified. -/
def Obligations.GenerateReportsTheFirstError : Prop :=
  ∀ (s : State) (code : BitVec 3), s.engine.phase = .idle →
    (if s.engine.keyLen.toNat = 0 then code = 1
     else if 2 ^ 63 ≤ s.engine.time.toNat then code = 2
     else 65 ≤ s.engine.keyLen.toNat ∧ code = 4) →
    exec .generate s = .next { s with engine := { s.engine with
      done := false, err := true, errCode := code, codeValid := false, codeD := Vector.replicate 6 0 } }

/-- `44_commands.md` R173: ZEROIZE in IDLE clears key, `KEYLEN`, `TIME`, code and result flags; the state then equals
the reset state except for `IE_*`, `LOCKERR`, `ILLCMD`; all 64 key bytes read 0x00 and `irq` is 0. Written in RUN it is
a dropped command. -/
def Obligations.ZeroizeErasesInputsAndResult : Prop :=
  (∀ s : State, s.engine.phase = .idle →
    ∃ t : State, exec .zeroize s = .next t ∧ t.script = s.script ∧ t.reads = s.reads ∧
      t.engine = { Engine.reset with
        ieDone := s.engine.ieDone, ieErr := s.engine.ieErr, lockErr := s.engine.lockErr, illCmd := s.engine.illCmd } ∧
      (∀ i : Nat, t.engine.key.read i = 0) ∧ t.engine.irq = false) ∧
  (∀ s : State, s.engine.phase = .run →
    exec .zeroize s = .next { s with engine := { s.engine with lockErr := true } })

/-- `44_commands.md` R178: any write to `CMD` in RUN, whatever the word, is dropped: `LOCKERR <- 1` and nothing else,
for each of the three commands and for every reserved word. -/
def Obligations.BusyEngineDropsEveryCommand : Prop :=
  ∀ s : State, s.engine.phase = .run →
    (∀ i : Instr, exec i s = .next { s with engine := { s.engine with lockErr := true } }) ∧
    (∀ w : Word, hostWrite 0x00 w s = .next { s with engine := { s.engine with lockErr := true } })

/-- `30_encoding.md` R96: a reserved word written to `CMD` sets `ILLCMD` in IDLE and nothing else; in RUN it is dropped
with `LOCKERR <- 1`, `ILLCMD` unchanged. -/
def Obligations.ReservedWordOnlySetsIllcmd : Prop :=
  ∀ (s : State) (w : Word), w ≠ 0x00000000 → w ≠ 0x00000001 → w ≠ 0x00000002 →
    (s.engine.phase = .idle → hostWrite 0x00 w s = .next { s with engine := { s.engine with illCmd := true } }) ∧
    (s.engine.phase = .run → hostWrite 0x00 w s = .next { s with engine := { s.engine with lockErr := true } })

/-- The frame of the three commands: in either phase no command writes the interrupt enables, `ILLCMD`, the pending
events or the values read; only ZEROIZE writes key memory, `KEYLEN` or `TIME`, so after NOP and GENERATE every byte of
key memory reads as before (`44_commands.md` R171, R172, R173). -/
def Obligations.CommandsKeepEverythingElse : Prop :=
  ∀ (i : Instr) (s t : State), exec i s = .next t →
    t.script = s.script ∧ t.reads = s.reads ∧
    t.engine.ieDone = s.engine.ieDone ∧ t.engine.ieErr = s.engine.ieErr ∧ t.engine.illCmd = s.engine.illCmd ∧
    (s.engine.phase = .idle → t.engine.lockErr = s.engine.lockErr) ∧
    (i ≠ .zeroize → t.engine.keyLen = s.engine.keyLen ∧ t.engine.time = s.engine.time ∧
      ∀ a : Nat, t.engine.key.read a = s.engine.key.read a)

/-- `60_exceptions.md` R200: re-issuing a failing GENERATE with unchanged inputs yields the same error again, and
nothing else changes. -/
def Obligations.RepeatedGenerateYieldsTheSameError : Prop :=
  ∀ s t : State, s.engine.phase = .idle → exec .generate s = .next t → t.engine.err = true →
    exec .generate t = .next t

/-! ## Registers -/

/-- `10_state.md` R25: every bit of what `STATUS` reads, and what a write of `STATUS` does, in either phase. -/
def Obligations.StatusReadsFlagsAndClearsOnOne : Prop :=
  (∀ e : Engine,
    (e.readReg .status).getLsbD 0 = decide (e.phase = .run) ∧ (e.readReg .status).getLsbD 1 = e.done ∧
    (e.readReg .status).getLsbD 2 = e.err ∧ (e.readReg .status).getLsbD 3 = e.lockErr ∧
    (e.readReg .status).getLsbD 4 = e.illCmd ∧ (e.readReg .status).extractLsb' 5 3 = 0 ∧
    (e.readReg .status).extractLsb' 8 3 = e.errCode ∧ (e.readReg .status).extractLsb' 11 21 = 0) ∧
  (∀ (s : State) (w : Word), ∃ t : State, hostWrite 0x01 w s = .next t ∧
    t = { s with engine := { s.engine with
      done := t.engine.done, err := t.engine.err, errCode := t.engine.errCode, lockErr := t.engine.lockErr,
      illCmd := t.engine.illCmd } } ∧
    t.engine.done = (if w.getLsbD 1 then false else s.engine.done) ∧
    t.engine.err = (if w.getLsbD 2 then false else s.engine.err) ∧
    t.engine.errCode = (if w.getLsbD 2 then 0 else s.engine.errCode) ∧
    t.engine.lockErr = (if w.getLsbD 3 then false else s.engine.lockErr) ∧
    t.engine.illCmd = (if w.getLsbD 4 then false else s.engine.illCmd))

/-- `10_state.md` R29: a write of `IRQ_EN` in either phase stores bits 0 and 1 and nothing else; the register reads
them back with bits 31:2 zero. -/
def Obligations.IrqEnKeepsTwoBits : Prop :=
  ∀ (s : State) (w : Word),
    hostWrite 0x02 w s = .next { s with engine := { s.engine with ieDone := w.getLsbD 0, ieErr := w.getLsbD 1 } } ∧
    ({ s.engine with ieDone := w.getLsbD 0, ieErr := w.getLsbD 1 } : Engine).readReg .irqEn = w &&& 0x00000003

/-- `10_state.md` R28: a write of `KEYLEN` in IDLE stores bits 7:0 and nothing else, whatever the value; the register
reads them back with bits 31:8 zero. -/
def Obligations.KeyLenKeepsEightBits : Prop :=
  ∀ (s : State) (w : Word), s.engine.phase = .idle →
    ∃ t : State, hostWrite 0x03 w s = .next t ∧ t = { s with engine := { s.engine with keyLen := t.engine.keyLen } } ∧
      t.engine.keyLen.toNat = w.toNat % 256 ∧ (t.engine.readReg .keyLen) = w &&& 0x000000FF

/-- `10_state.md` R27, `20_memory.md` R62: in IDLE writes of `TIME_HI` and `TIME_LO` replace one half of `TIME` and
nothing else; both halves written give `{TIME_HI, TIME_LO}`; each half reads back. -/
def Obligations.TimeIsWrittenInHalves : Prop :=
  ∀ (s : State) (hi lo : Word), s.engine.phase = .idle →
    ∃ t u : State, hostWrite 0x04 hi s = .next t ∧ t = { s with engine := { s.engine with time := t.engine.time } } ∧
      t.engine.readReg .timeHi = hi ∧ t.engine.readReg .timeLo = s.engine.readReg .timeLo ∧
      hostWrite 0x05 lo t = .next u ∧ u = { t with engine := { t.engine with time := u.engine.time } } ∧
      u.engine.time.toNat = hi.toNat * 2 ^ 32 + lo.toNat ∧
      u.engine.readReg .timeHi = hi ∧ u.engine.readReg .timeLo = lo

/-- `10_state.md` R26, `20_memory.md` R62: in IDLE a write of `KEYWj` stores its four bytes, most significant at the
lowest index, and leaves every other byte of key memory and every other state element as it was; the word itself
reads 0. Key memory is in canonical form, an invariant of every step. -/
def Obligations.KeyWordWriteStoresFourBytes : Prop :=
  ∀ (s : State) (j : BitVec 4) (w : Word), s.engine.phase = .idle → s.engine.key.wf = true →
    ∃ t : State, hostWrite (Reg.keyW j).addr w s = .next t ∧
      t = { s with engine := { s.engine with key := t.engine.key } } ∧
      t.engine.key.read (4 * j.toNat) = w.extractLsb' 24 8 ∧ t.engine.key.read (4 * j.toNat + 1) = w.extractLsb' 16 8 ∧
      t.engine.key.read (4 * j.toNat + 2) = w.extractLsb' 8 8 ∧ t.engine.key.read (4 * j.toNat + 3) = w.extractLsb' 0 8 ∧
      (∀ a : Nat, a < 4 * j.toNat ∨ 4 * j.toNat + 4 ≤ a → t.engine.key.read a = s.engine.key.read a) ∧
      t.engine.readReg (.keyW j) = 0

/-- `10_state.md` R45: in RUN a host write to a locked register changes nothing except `LOCKERR <- 1`; the other
registers are written as in IDLE; reads are never locked. -/
def Obligations.LockedRegistersDropWritesInRun : Prop :=
  ∀ (s : State) (a : WordAddr) (w : Word), s.engine.phase = .run →
    (a = 0x00 ∨ a = 0x03 ∨ a = 0x04 ∨ a = 0x05 ∨ (0x10 ≤ a.toNat ∧ a.toNat < 0x20) →
      hostWrite a w s = .next { s with engine := { s.engine with lockErr := true } }) ∧
    (a ≠ 0x00 → a ≠ 0x03 → a ≠ 0x04 → a ≠ 0x05 → ¬(0x10 ≤ a.toNat ∧ a.toNat < 0x20) →
      hostWrite a w s = .next { s with engine := s.engine.writeReg (Reg.ofAddr a) w } ∧
      hostWrite a w { s with engine := { s.engine with phase := .idle } } =
        .next { s with engine := { s.engine.writeReg (Reg.ofAddr a) w with phase := .idle } }) ∧
    hostAccess ⟨false, a, w⟩ s = .next { s with reads := s.engine.readReg (Reg.ofAddr a) :: s.reads }

/-- `20_memory.md` R66: reserved words and read-only registers ignore a write, in either phase and without a flag;
reserved words and write-only registers read 0; reserved fields read 0 and a write of them makes no difference. -/
def Obligations.ReservedAndReadOnlyWordsIgnoreWrites : Prop :=
  (∀ (s : State) (a : WordAddr) (w : Word), (0x06 ≤ a.toNat ∧ a.toNat < 0x10) ∨ 0x20 ≤ a.toNat →
    hostWrite a w s = .next s) ∧
  (∀ (e : Engine) (a : WordAddr), a = 0x00 ∨ 0x0B ≤ a.toNat → e.readReg (Reg.ofAddr a) = 0) ∧
  (∀ e : Engine, e.readReg .status &&& 0xFFFFF8E0 = 0 ∧ e.readReg .irqEn &&& 0xFFFFFFFC = 0 ∧
    e.readReg .keyLen &&& 0xFFFFFF00 = 0 ∧ e.readReg .codeBcd &&& 0x7F000000 = 0 ∧
    e.readReg .codeAscii1 &&& 0x0000FFFF = 0 ∧ e.readReg .caps &&& 0xFFFF0000 = 0) ∧
  (∀ (s : State) (w : Word), hostWrite 0x01 w s = hostWrite 0x01 (w &&& 0x0000001E) s ∧
    hostWrite 0x02 w s = hostWrite 0x02 (w &&& 0x00000003) s ∧
    hostWrite 0x03 w s = hostWrite 0x03 (w &&& 0x000000FF) s)

/-- `20_memory.md` R70, R67: a read step of any word, in either phase, returns the value the register has in that state
and changes no state element of the engine; a second read of the same word right after it returns the same value. -/
def Obligations.ReadsHaveNoSideEffect : Prop :=
  ∀ (s : State) (a : WordAddr) (d1 d2 : Word) (rest : List Event) (v : Word),
    s.script = .access ⟨false, a, d1⟩ :: .access ⟨false, a, d2⟩ :: rest → v = s.engine.readReg (Reg.ofAddr a) →
    step s = .next { s with script := .access ⟨false, a, d2⟩ :: rest, reads := v :: s.reads } ∧
      step { s with script := .access ⟨false, a, d2⟩ :: rest, reads := v :: s.reads } =
        .next { s with script := rest, reads := v :: v :: s.reads }

/-- `10_state.md` R31, R32: the three code registers are views of `CODE_VALID` and `CODE_D`: BCD digits with the
valid bit in bit 31, the ASCII characters of the digits, all zero with no code. -/
def Obligations.CodeRegistersAreViewsOfTheDigits : Prop :=
  ∀ e : Engine, e.Inv →
    (e.readReg .codeBcd).getLsbD 31 = e.codeValid ∧ (e.readReg .codeBcd).extractLsb' 24 7 = 0 ∧
    (∀ k : Fin 6, (e.readReg .codeBcd).extractLsb' (4 * (5 - k.val)) 4 = e.codeD[k]) ∧
    (e.codeValid = true →
      (∀ k : Fin 4, ((e.readReg .codeAscii0).extractLsb' (8 * (3 - k.val)) 8).toNat = 0x30 + e.codeD[k.val].toNat) ∧
      ((e.readReg .codeAscii1).extractLsb' 24 8).toNat = 0x30 + e.codeD[4].toNat ∧
      ((e.readReg .codeAscii1).extractLsb' 16 8).toNat = 0x30 + e.codeD[5].toNat ∧
      (e.readReg .codeAscii1).extractLsb' 0 16 = 0) ∧
    (e.codeValid = false →
      e.readReg .codeBcd = 0 ∧ e.readReg .codeAscii0 = 0 ∧ e.readReg .codeAscii1 = 0)

/-- `10_state.md` R33, R34: `STEP` and `CAPS` read their constants in every state and ignore writes. -/
def Obligations.StepAndCapsAreConstant : Prop :=
  ∀ (s : State) (w : Word),
    s.engine.readReg (Reg.ofAddr 0x09) = 0x0000001E ∧ hostWrite 0x09 w s = .next s ∧
    s.engine.readReg (Reg.ofAddr 0x0A) = 0x00004006 ∧ hostWrite 0x0A w s = .next s

/-! ## Errors and the interrupt line -/

/-- `60_exceptions.md` R198: a STATUS write with bit 2 set, an accepted GENERATE on valid inputs, ZEROIZE and reset each
end the error condition, and the engine is usable while `ERR = 1`. -/
def Obligations.ErrorEndsOnAcknowledgeOrCommand : Prop :=
  ∀ s : State, s.engine.phase = .idle → s.engine.err = true →
    (∃ t : State, hostWrite 0x01 0x00000004 s = .next t ∧ t.engine = { s.engine with err := false, errCode := 0 }) ∧
    (∀ w : Word, w.getLsbD 2 = true →
      ∃ t : State, hostWrite 0x01 w s = .next t ∧ t.engine.err = false ∧ t.engine.errCode = 0) ∧
    (1 ≤ s.engine.keyLen.toNat → s.engine.keyLen.toNat ≤ 64 → s.engine.time.toNat < 2 ^ 63 →
      ∃ t : State, exec .generate s = .next t ∧ t.engine.err = false ∧ t.engine.errCode = 0 ∧ t.engine.phase = .run) ∧
    (∃ t : State, exec .zeroize s = .next t ∧ t.engine.err = false ∧ t.engine.errCode = 0) ∧
    (s.resetStep.engine.err = false ∧ s.resetStep.engine.errCode = 0)

/-- `60_exceptions.md` R203, R204: `irq` is the stated function of the flags and enables; completion and error entry
raise it exactly when their enable is 1; an enable set while its flag is 1 raises it and an enable cleared drops it; a
STATUS write, an accepted start, ZEROIZE and reset drop it as they clear the flags; `LOCKERR`, `ILLCMD` and `phase` do
not matter to it; the pending bits are set whatever the enables are. -/
def Obligations.IrqFollowsDoneAndErr : Prop :=
  (∀ e : Engine, e.irq = true ↔ (e.done = true ∧ e.ieDone = true) ∨ (e.err = true ∧ e.ieErr = true)) ∧
  (∀ s t : State, s.Inv → completion s = .next t → t.engine.done = true ∧ t.engine.irq = s.engine.ieDone) ∧
  (∀ s t : State, s.engine.phase = .idle → exec .generate s = .next t →
    t.engine.irq = (t.engine.err && s.engine.ieErr)) ∧
  (∀ s t : State, s.engine.phase = .idle → exec .zeroize s = .next t → t.engine.irq = false) ∧
  (∀ s : State, s.resetStep.engine.irq = false) ∧
  (∀ (s t : State) (w : Word), hostWrite 0x01 w s = .next t →
    t.engine.irq = ((s.engine.done && s.engine.ieDone && !w.getLsbD 1) ||
      (s.engine.err && s.engine.ieErr && !w.getLsbD 2))) ∧
  (∀ (s t : State) (w : Word), hostWrite 0x02 w s = .next t →
    t.engine.irq = ((s.engine.done && w.getLsbD 0) || (s.engine.err && w.getLsbD 1))) ∧
  (∀ (e : Engine) (l i : Bool) (p : Phase), ({ e with lockErr := l, illCmd := i, phase := p } : Engine).irq = e.irq)

/-! ## Completion and the result -/

/-- `44_commands.md` R175: completion in RUN publishes `generate_code` of the first `KEYLEN` key bytes and `TIME`, sets
`CODE_VALID` and `DONE` and returns to IDLE, all in one step and with nothing else changed; `irq` rises if
`IE_DONE = 1`. In IDLE, where it is not enabled, the model refuses it by name: the model's reading (DEDUCED, log
entry 5). -/
def Obligations.CompletionPublishesTheCode : Prop :=
  (∀ s : State, s.engine.phase = .run → 1 ≤ s.engine.keyLen.toNat → s.engine.keyLen.toNat ≤ 64 →
    s.engine.time.toNat < 2 ^ 63 →
    ∃ t : State, completion s = .next t ∧
      t = { s with engine := { s.engine with
        codeD := generateCode ((List.range s.engine.keyLen.toNat).map fun i => s.engine.key.read i) s.engine.time,
        codeValid := true, done := true, phase := .idle } } ∧
      (s.engine.ieDone = true → t.engine.irq = true)) ∧
  (∀ s : State, s.engine.phase = .idle → completion s = .refused .completionNotEnabled)

/-- In RUN with inputs outside the domain of `44_commands.md` R174, which no state reachable from reset has
(`10_state.md` R44 item (a)), completion faults by name: the model's choice, log entry 4. -/
def Obligations.CompletionOutsideItsDomainFaults : Prop :=
  ∀ s : State, s.engine.phase = .run →
    s.engine.keyLen.toNat = 0 ∨ 65 ≤ s.engine.keyLen.toNat ∨ 2 ^ 63 ≤ s.engine.time.toNat →
    completion s = .fault .completionOutsideDomain

/-- `44_commands.md` R176, `41_hmac_sha1.md` R135: two operations with the same `KEYLEN`, the same `TIME` and the same
key bytes below `KEYLEN` publish the same digits, whatever else differs. -/
def Obligations.ResultDependsOnlyOnKeyAndTime : Prop :=
  ∀ s1 s2 t1 t2 : State, s1.engine.keyLen = s2.engine.keyLen → s1.engine.time = s2.engine.time →
    (∀ i : Nat, i < s1.engine.keyLen.toNat → s1.engine.key.read i = s2.engine.key.read i) →
    completion s1 = .next t1 → completion s2 = .next t2 → t1.engine.codeD = t2.engine.codeD

/-- `44_commands.md` R176, `10_state.md` R45: whatever accesses the host makes between acceptance and completion, the
operation completes and publishes the code of the key and time held at acceptance. -/
def Obligations.HostCannotDisturbARunningOperation : Prop :=
  ∀ (s : State) (accesses : List Txn), s.engine.phase = .run → 1 ≤ s.engine.keyLen.toNat →
    s.engine.keyLen.toNat ≤ 64 → s.engine.time.toNat < 2 ^ 63 →
    ∃ t : State, core.run (accesses.length + 1) { s with script := accesses.map Event.access ++ [.run] } = .next t ∧
      t.script = [] ∧ t.engine.phase = .idle ∧ t.engine.done = true ∧ t.engine.codeValid = true ∧
      t.engine.codeD = generateCode ((List.range s.engine.keyLen.toNat).map fun i => s.engine.key.read i) s.engine.time ∧
      t.engine.key = s.engine.key ∧ t.engine.keyLen = s.engine.keyLen ∧ t.engine.time = s.engine.time

/-- `44_commands.md` R179, `30_encoding.md` R100: from every state that meets the invariant and is in RUN, whatever finite
list of events the environment has pending, the phase is IDLE again after at most one step more than these events can
take (the schedule is the model's, log entry 2). `poll` in RUN reads `BUSY = 1` until completion (here `more + 1` times,
at least once, the model's choice of log entry 10), then `BUSY = 0`, and is over; in IDLE it reads `BUSY = 0` and is over at once. -/
def Obligations.RunEndsAfterFinitelyManySteps : Prop :=
  (∀ s : State, s.Inv → s.engine.phase = .run →
    ∃ (n : Nat) (t : State), n ≤ (s.script.map Event.steps).sum + 1 ∧ core.run n s = .next t ∧ t.engine.phase = .idle) ∧
  (∀ (s : State) (more : Nat) (rest : List Event), s.Inv → s.script = .poll more :: rest → s.engine.phase = .run →
    (s.engine.readReg .status).getLsbD 0 = true ∧
    ∃ t u : State, completion s = .next t ∧ (t.engine.readReg .status).getLsbD 0 = false ∧
      core.run (more + 3) s = .next u ∧ u.engine = t.engine ∧ u.script = rest ∧
      u.reads = t.engine.readReg .status :: (List.replicate (more + 1) (s.engine.readReg .status) ++ s.reads)) ∧
  (∀ (s : State) (more : Nat) (rest : List Event), s.script = .poll more :: rest → s.engine.phase = .idle →
    (s.engine.readReg .status).getLsbD 0 = false ∧
    step s = .next { s with script := rest, reads := s.engine.readReg .status :: s.reads })

/-- `00_scope.md` R14, `70_reset_and_hazards.md` R224, `30_encoding.md` R100: from any state in IDLE that meets the
invariant, loading a key of 1 to 64 bytes, setting a time not before the epoch and writing GENERATE leads, with the
engine's completion, to the code of exactly that key and time. With `totp` in place of GENERATE, whatever the number
of reads before completion, the host reads `STATUS` with `BUSY = 1`, then once with `BUSY = 0`, then both halves of that
code. That at least one read comes before completion is the model's choice (DESIGN CHOICE, log entry 10): R179 also
allows none. -/
def Obligations.LoadedKeyAndTimeGiveTheirCode : Prop :=
  ∀ (s : State) (key : List Byte) (t : BitVec 64) (load : List Event), s.Inv → s.engine.phase = .idle →
    1 ≤ key.length → key.length ≤ 64 → t.toNat < 2 ^ 63 → scriptLoadKey key = some load →
    (∃ u : State,
      core.run (load.length + 4) { s with script := load ++ scriptSetTime t ++ scriptGenerate ++ [.run] } = .next u ∧
      u.script = [] ∧ u.engine.phase = .idle ∧ u.engine.done = true ∧ u.engine.err = false ∧
      u.engine.codeValid = true ∧ u.engine.codeD = generateCode key t) ∧
    (∀ more : Nat, ∃ (u : State) (busy idle : Word),
      core.run (load.length + more + 8) { s with script := load ++ scriptSetTime t ++ scriptTotp more } = .next u ∧
      u.script = [] ∧ u.engine.phase = .idle ∧ u.engine.codeValid = true ∧ u.engine.codeD = generateCode key t ∧
      busy.getLsbD 0 = true ∧ idle.getLsbD 0 = false ∧
      u.reads = u.engine.readReg .codeAscii1 :: u.engine.readReg .codeAscii0 :: idle ::
        (List.replicate (more + 1) busy ++ s.reads))

/-- `30_encoding.md` R100: every key of at most 64 bytes can be loaded and no longer one; in IDLE the events of
`loadkey` leave exactly those bytes in key memory, 0x00 in the absent bytes of the last word written, every byte of the
words not written as it was, and the number of bytes in `KEYLEN`; they change nothing else of the engine. -/
def Obligations.LoadKeyStoresTheKey : Prop :=
  (∀ key : List Byte, (scriptLoadKey key).isSome = true ↔ key.length ≤ 64) ∧
  (∀ (s : State) (key : List Byte) (load : List Event), s.Inv → s.engine.phase = .idle →
    scriptLoadKey key = some load →
    ∃ u : State, core.run load.length { s with script := load } = .next u ∧
      u = { s with script := [], engine := { s.engine with key := u.engine.key, keyLen := u.engine.keyLen } } ∧
      u.engine.keyLen.toNat = key.length ∧ (∀ i : Fin key.length, u.engine.key.read i.val = key[i]) ∧
      (∀ i : Nat, key.length ≤ i → i < (key.length + 3) / 4 * 4 → u.engine.key.read i = 0) ∧
      (∀ i : Nat, (key.length + 3) / 4 * 4 ≤ i → u.engine.key.read i = s.engine.key.read i))

/-- `44_commands.md` R172, `20_memory.md` R71: after a completed operation, GENERATE with unchanged inputs clears the
code first and publishes the same code again. -/
def Obligations.RepeatedGenerateYieldsTheSameCode : Prop :=
  ∀ s t : State, completion s = .next t →
    ∃ u v : State, exec .generate t = .next u ∧ u.engine.codeValid = false ∧ u.engine.done = false ∧
      completion u = .next v ∧ v.engine.codeD = t.engine.codeD ∧ v.engine.codeValid = true ∧ v.engine.done = true

/-! ## The stages -/

/-- `40_counter.md` R111, R113: the counter is the floor of the time divided by 30, and fits its bound. -/
def Obligations.CounterIsFloorOfTimeByThirty : Prop :=
  ∀ t : BitVec 64, t.toNat < 2 ^ 63 →
    (counter t).toNat = t.toNat / 30 ∧ (counter t).toNat ≤ 307445734561825860

/-- `40_counter.md` R116: times in the same 30-second window have the same counter and, for every key, the same code;
the counter is monotonic and grows by one every 30 seconds. -/
def Obligations.TimeWindowsShareACode : Prop :=
  (∀ (key : List Byte) (t1 t2 : BitVec 64), t1.toNat < 2 ^ 63 → t2.toNat < 2 ^ 63 →
    t1.toNat / 30 = t2.toNat / 30 → counter t1 = counter t2 ∧ generateCode key t1 = generateCode key t2) ∧
  (∀ t1 t2 : BitVec 64, t1.toNat < 2 ^ 63 → t2.toNat < 2 ^ 63 → t1.toNat ≤ t2.toNat →
    (counter t1).toNat ≤ (counter t2).toNat) ∧
  (∀ t : BitVec 64, (t.toNat + 30) < 2 ^ 63 → (counter (t + 30)).toNat = (counter t).toNat + 1)

/-- `40_counter.md` R115: byte `j` of CounterBytes is bits `63-8j : 56-8j` of the counter. -/
def Obligations.CounterBytesAreBigEndian : Prop :=
  ∀ (c : BitVec 64) (j : Fin 8), (counterBytes c)[j].toNat = c.toNat / 2 ^ (8 * (7 - j.val)) % 256

/-- `41_hmac_sha1.md` R122: the shape of `pad(M)`: the message, 0x80, the smallest number of zero bytes, the length in
bits as a big-endian 64-bit number; whole blocks only, one more when `L mod 64 ≥ 56`. -/
def Obligations.PaddingFillsWholeBlocks : Prop :=
  ∀ m : List Byte, m.length < 2 ^ 61 →
    ∃ (z : Nat) (len : Vector Byte 8), pad m = m ++ [0x80] ++ List.replicate z 0 ++ len.toList ∧
      (m.length + 1 + z) % 64 = 56 ∧ (∀ z' : Nat, (m.length + 1 + z') % 64 = 56 → z ≤ z') ∧
      (∀ j : Fin 8, len[j].toNat = 8 * m.length / 2 ^ (8 * (7 - j.val)) % 256) ∧
      m.length + 9 ≤ (pad m).length ∧
      (pad m).length = 64 * (m.length / 64 + if m.length % 64 ≤ 55 then 1 else 2)

/-- `41_hmac_sha1.md` R123, R124: the schedule of a 64-byte block has eighty words; the first sixteen are the block read
as big-endian words, each later one is the rotated exclusive or of four earlier ones. -/
def Obligations.ScheduleFollowsItsRecurrence : Prop :=
  ∀ block : List Byte, block.length = 64 →
    (schedule block).length = 80 ∧
    (∀ t : Nat, t < 16 → (schedule block)[t]?.map BitVec.toNat =
      some ((block.getD (4 * t) 0).toNat * 2 ^ 24 + (block.getD (4 * t + 1) 0).toNat * 2 ^ 16 +
        (block.getD (4 * t + 2) 0).toNat * 2 ^ 8 + (block.getD (4 * t + 3) 0).toNat)) ∧
    (∀ t : Nat, 16 ≤ t → t < 80 →
      (schedule block).getD t 0 = BitVec.rotateLeft ((schedule block).getD (t - 3) 0 ^^^ (schedule block).getD (t - 8) 0 ^^^
        (schedule block).getD (t - 14) 0 ^^^ (schedule block).getD (t - 16) 0) 1)

/-- `41_hmac_sha1.md` R125, R126: the compression function is eighty rounds over the schedule, each of the form the spec
gives, and the word-wise addition of the incoming hash value. -/
def Obligations.CompressionIsEightyRounds : Prop :=
  ∀ (h : Hash) (block : List Byte), block.length = 64 →
    ∃ v : Nat → Hash, v 0 = h ∧
      (∀ t : Nat, t < 80 →
        (v (t + 1)).h0 = BitVec.rotateLeft (v t).h0 5 +
          (if t < 20 then ((v t).h1 &&& (v t).h2) ||| (~~~(v t).h1 &&& (v t).h3)
           else if 40 ≤ t ∧ t < 60 then ((v t).h1 &&& (v t).h2) ||| ((v t).h1 &&& (v t).h3) ||| ((v t).h2 &&& (v t).h3)
           else (v t).h1 ^^^ (v t).h2 ^^^ (v t).h3) + (v t).h4 +
          (if t < 20 then 0x5A827999 else if t < 40 then 0x6ED9EBA1 else if t < 60 then 0x8F1BBCDC else 0xCA62C1D6) +
          (schedule block).getD t 0 ∧
        (v (t + 1)).h1 = (v t).h0 ∧ (v (t + 1)).h2 = BitVec.rotateLeft (v t).h1 30 ∧ (v (t + 1)).h3 = (v t).h2 ∧
        (v (t + 1)).h4 = (v t).h3) ∧
      compress h block = ⟨h.h0 + (v 80).h0, h.h1 + (v 80).h1, h.h2 + (v 80).h2, h.h3 + (v 80).h3, h.h4 + (v 80).h4⟩

/-- `41_hmac_sha1.md` R123, R127: the padded message is cut into blocks of 64 bytes, in order; the hash is the
compression function applied to them one after the other from the initial value, its five words laid out most
significant byte first. -/
def Obligations.HashFoldsOverTheBlocks : Prop :=
  (∀ m : List Byte, m.length < 2 ^ 61 →
    ∃ bs : List (List Byte), bs.flatten = pad m ∧ (∀ b ∈ bs, b.length = 64) ∧
      sha1 m = (bs.foldl compress ⟨0x67452301, 0xEFCDAB89, 0x98BADCFE, 0x10325476, 0xC3D2E1F0⟩).digest) ∧
  (∀ (h : Hash) (j : Fin 4),
    h.digest[j.val] = h.h0.extractLsb' (24 - 8 * j.val) 8 ∧ h.digest[4 + j.val] = h.h1.extractLsb' (24 - 8 * j.val) 8 ∧
    h.digest[8 + j.val] = h.h2.extractLsb' (24 - 8 * j.val) 8 ∧
    h.digest[12 + j.val] = h.h3.extractLsb' (24 - 8 * j.val) 8 ∧
    h.digest[16 + j.val] = h.h4.extractLsb' (24 - 8 * j.val) 8)

/-- `41_hmac_sha1.md` R131: a key longer than one block is hashed first and then acts as its own hash, a key of at
most one block is used as it is, and either is extended with zeros to 64 bytes. No key of this hardware is longer; the
stage functions are defined on such keys. -/
def Obligations.LongKeysAreHashedFirst : Prop :=
  (∀ key : List Byte, 64 < key.length → prepareKey key = (sha1 key).toList ++ List.replicate 44 0) ∧
  (∀ key m : List Byte, 64 < key.length → hmacSha1 key m = hmacSha1 (sha1 key).toList m) ∧
  (∀ key : List Byte, (prepareKey key).length = 64) ∧
  (∀ key : List Byte, key.length ≤ 64 → prepareKey key = key ++ List.replicate (64 - key.length) 0)

/-- `41_hmac_sha1.md` R133: for a key of at most 64 bytes and an 8-byte message, HMAC-SHA-1 is four compressions on the
blocks the spec writes out. -/
def Obligations.HmacIsFourCompressions : Prop :=
  ∀ (key : List Byte) (cb : Vector Byte 8), 1 ≤ key.length → key.length ≤ 64 →
    ∀ k0 : List Byte, k0 = key ++ List.replicate (64 - key.length) 0 →
    ∀ inner : Digest, inner = (compress (compress ⟨0x67452301, 0xEFCDAB89, 0x98BADCFE, 0x10325476, 0xC3D2E1F0⟩
        (k0.map (· ^^^ 0x36)))
        (cb.toList ++ [0x80] ++ List.replicate 47 0 ++ [0, 0, 0, 0, 0, 0, 0x02, 0x40])).digest →
    hmacSha1 key cb.toList = (compress (compress ⟨0x67452301, 0xEFCDAB89, 0x98BADCFE, 0x10325476, 0xC3D2E1F0⟩
        (k0.map (· ^^^ 0x5C)))
        (inner.toList ++ [0x80] ++ List.replicate 35 0 ++ [0, 0, 0, 0, 0, 0, 0x02, 0xA0])).digest

/-- `41_hmac_sha1.md` R135, R131: within a block, keys that differ only by trailing 0x00 bytes give the same digest of
every message. -/
def Obligations.TrailingZeroKeyBytesDoNotMatter : Prop :=
  ∀ (key m : List Byte) (n : Nat), key.length + n ≤ 64 →
    hmacSha1 (key ++ List.replicate n 0) m = hmacSha1 key m

/-- `42_truncate.md` R151, R152, R153, R154: the offset is the low nibble of byte 19, the four bytes read lie in bytes 0
to 18, the value is their big-endian number modulo 2^31, the reduced value is that modulo 10^6. -/
def Obligations.TruncationIsUnsignedArithmetic : Prop :=
  ∀ (d : Digest) (o : Nat), o = d[19].toNat % 16 →
    (truncOffset d).toNat = o ∧ o + 3 ≤ 18 ∧
    ∃ p : Nat, p = (d.toList.getD o 0).toNat * 2 ^ 24 + (d.toList.getD (o + 1) 0).toNat * 2 ^ 16 +
        (d.toList.getD (o + 2) 0).toNat * 2 ^ 8 + (d.toList.getD (o + 3) 0).toNat ∧
      (truncWord d).toNat = p ∧ (truncatedValue d).toNat = p % 2 ^ 31 ∧ (reduced d).toNat = p % 2 ^ 31 % 1000000

/-- `43_format.md` R161, R165: the six digits are decimal, they are the decimal expansion of the value modulo 10^6, no
other six decimal digits are, and reducing the value first changes nothing. -/
def Obligations.FormatIsTheDecimalExpansion : Prop :=
  ∀ v : Word,
    (∀ k : Fin 6, (formatCode v)[k].toNat ≤ 9) ∧
    (∀ d : Digits, (∀ k : Fin 6, d[k].toNat ≤ 9) →
      (100000 * d[0].toNat + 10000 * d[1].toNat + 1000 * d[2].toNat + 100 * d[3].toNat + 10 * d[4].toNat + d[5].toNat =
        v.toNat % 1000000 ↔ d = formatCode v)) ∧
    formatCode (v % 1000000) = formatCode v

/-- `44_commands.md` R174: the code of a key and a time, written out as arithmetic on numbers: the counter's bytes, the
digest, the four bytes at the offset, modulo 2^31, modulo 10^6, digit by digit. -/
def Obligations.GenerateCodeIsTheStatedFunction : Prop :=
  ∀ (key : List Byte) (t : BitVec 64), 1 ≤ key.length → key.length ≤ 64 → t.toNat < 2 ^ 63 →
    ∃ (cb : List Byte) (d : Digest) (o p : Nat),
      cb = (List.range 8).map (fun j => BitVec.ofNat 8 (t.toNat / 30 / 2 ^ (8 * (7 - j)))) ∧
      d = hmacSha1 key cb ∧ o = d[19].toNat % 16 ∧
      p = (d.toList.getD o 0).toNat * 2 ^ 24 + (d.toList.getD (o + 1) 0).toNat * 2 ^ 16 +
        (d.toList.getD (o + 2) 0).toNat * 2 ^ 8 + (d.toList.getD (o + 3) 0).toNat ∧
      ∀ k : Fin 6, (generateCode key t)[k].toNat = p % 2 ^ 31 % 1000000 / 10 ^ (5 - k.val) % 10

/-! ## Rules over all steps -/

/-- `10_state.md` R21: `phase` goes from IDLE to RUN only by a GENERATE written to `CMD` on valid inputs, and from RUN to
IDLE only by completion or reset. -/
def Obligations.PhaseChangesOnlyAsStated : Prop :=
  ∀ s t : State, step s = .next t →
    (s.engine.phase = .idle → t.engine.phase = .run →
      (∃ rest, s.script = .access ⟨true, 0x00, 0x00000001⟩ :: rest) ∧ 1 ≤ s.engine.keyLen.toNat ∧
        s.engine.keyLen.toNat ≤ 64 ∧ s.engine.time.toNat < 2 ^ 63) ∧
    (s.engine.phase = .run → t.engine.phase = .idle →
      (∃ rest, s.script = .reset :: rest ∧ t.engine = Engine.reset) ∨
      ((s.script = [] ∨ ∃ rest, s.script = .run :: rest) ∧ t.engine.done = true ∧ t.engine.codeValid = true))

/-- `10_state.md` R36, R37, R43: `DONE` is set only by completion, which also writes the code, and cleared only by a
STATUS write with bit 1, by a GENERATE or ZEROIZE written to `CMD` in IDLE, or by reset; `ERR` is set only by a GENERATE
written to `CMD` in IDLE, together with a non-zero `ERRCODE`; `ERR` is cleared, and `ERRCODE` changes at all, only by a
STATUS write with bit 2, by a GENERATE or ZEROIZE written to `CMD` in IDLE, or by reset. -/
def Obligations.ResultFlagsAreSetOnlyAsStated : Prop :=
  ∀ s t : State, step s = .next t →
    (s.engine.done = false → t.engine.done = true →
      s.engine.phase = .run ∧ t.engine.phase = .idle ∧ t.engine.codeValid = true) ∧
    (s.engine.err = false → t.engine.err = true →
      s.engine.phase = .idle ∧ (∃ rest, s.script = .access ⟨true, 0x00, 0x00000001⟩ :: rest) ∧
        t.engine.errCode ≠ 0 ∧ t.engine.codeValid = false) ∧
    (s.engine.done = true → t.engine.done = false →
      (∃ rest, s.script = .reset :: rest) ∨
      (∃ w rest, s.script = .access ⟨true, 0x01, w⟩ :: rest ∧ w.getLsbD 1 = true) ∨
      (s.engine.phase = .idle ∧ ∃ w rest,
        s.script = .access ⟨true, 0x00, w⟩ :: rest ∧ (w = 0x00000001 ∨ w = 0x00000002))) ∧
    ((s.engine.err = true ∧ t.engine.err = false) ∨ t.engine.errCode ≠ s.engine.errCode →
      (∃ rest, s.script = .reset :: rest) ∨
      (∃ w rest, s.script = .access ⟨true, 0x01, w⟩ :: rest ∧ w.getLsbD 2 = true) ∨
      (s.engine.phase = .idle ∧ ∃ w rest,
        s.script = .access ⟨true, 0x00, w⟩ :: rest ∧ (w = 0x00000001 ∨ w = 0x00000002)))

/-- `10_state.md` R38, R39: `LOCKERR` is set only by a host write to a locked register in RUN and cleared only by a
STATUS write with bit 3 or by reset; `ILLCMD` is set only by a reserved word written to `CMD` in IDLE and cleared only
by a STATUS write with bit 4 or by reset. -/
def Obligations.StickyFlagsChangeOnlyAsStated : Prop :=
  ∀ s t : State, step s = .next t →
    (s.engine.lockErr = false → t.engine.lockErr = true →
      s.engine.phase = .run ∧ ∃ a w rest, s.script = .access ⟨true, a, w⟩ :: rest ∧ (Reg.ofAddr a).locked = true) ∧
    (s.engine.lockErr = true → t.engine.lockErr = false →
      (∃ rest, s.script = .reset :: rest) ∨ ∃ w rest, s.script = .access ⟨true, 0x01, w⟩ :: rest ∧ w.getLsbD 3 = true) ∧
    (s.engine.illCmd = false → t.engine.illCmd = true →
      s.engine.phase = .idle ∧ ∃ w rest, s.script = .access ⟨true, 0x00, w⟩ :: rest ∧ 3 ≤ w.toNat) ∧
    (s.engine.illCmd = true → t.engine.illCmd = false →
      (∃ rest, s.script = .reset :: rest) ∨ ∃ w rest, s.script = .access ⟨true, 0x01, w⟩ :: rest ∧ w.getLsbD 4 = true)

/-- `10_state.md` R26, R27, R28: key memory, `KEYLEN` and `TIME` change only in IDLE by a host write to their own
registers or by ZEROIZE, or by reset; completion and GENERATE never change them. -/
def Obligations.InputsChangeOnlyByHostOrReset : Prop :=
  ∀ s t : State, step s = .next t →
    (t.engine.key ≠ s.engine.key →
      (∃ rest, s.script = .reset :: rest) ∨ (s.engine.phase = .idle ∧ ∃ a w rest,
        s.script = .access ⟨true, a, w⟩ :: rest ∧ ((0x10 ≤ a.toNat ∧ a.toNat < 0x20) ∨ (a = 0x00 ∧ w = 0x00000002)))) ∧
    (t.engine.keyLen ≠ s.engine.keyLen →
      (∃ rest, s.script = .reset :: rest) ∨ (s.engine.phase = .idle ∧ ∃ a w rest,
        s.script = .access ⟨true, a, w⟩ :: rest ∧ (a = 0x03 ∨ (a = 0x00 ∧ w = 0x00000002)))) ∧
    (t.engine.time ≠ s.engine.time →
      (∃ rest, s.script = .reset :: rest) ∨ (s.engine.phase = .idle ∧ ∃ a w rest,
        s.script = .access ⟨true, a, w⟩ :: rest ∧ (a = 0x04 ∨ a = 0x05 ∨ (a = 0x00 ∧ w = 0x00000002))))

/-- `10_state.md` R30: `CODE_VALID` and the digits change only by completion, by a GENERATE or ZEROIZE written to `CMD`
in IDLE, or by reset; acknowledging `DONE` keeps the code (R36). -/
def Obligations.CodeChangesOnlyAsStated : Prop :=
  ∀ s t : State, step s = .next t →
    t.engine.codeValid ≠ s.engine.codeValid ∨ t.engine.codeD ≠ s.engine.codeD →
    (∃ rest, s.script = .reset :: rest) ∨
    (s.engine.phase = .run ∧ t.engine.phase = .idle ∧ t.engine.done = true ∧ t.engine.codeValid = true) ∨
    (s.engine.phase = .idle ∧ t.engine.codeValid = false ∧ ∃ w rest,
      s.script = .access ⟨true, 0x00, w⟩ :: rest ∧ (w = 0x00000001 ∨ w = 0x00000002))

/-! ## Pins -/

/-- `20_memory.md` R79: a host write and completion in one clock cycle act as host write first, completion second: a
STATUS write that clears `DONE` leaves `DONE = 1`, and a write to a locked register is dropped with `LOCKERR = 1`. -/
def Obligations.SameCycleWriteComesBeforeCompletion : Prop :=
  ∀ (s : State) (a : WordAddr) (w : Word), s.engine.phase = .run → 1 ≤ s.engine.keyLen.toNat →
    s.engine.keyLen.toNat ≤ 64 → s.engine.time.toNat < 2 ^ 63 →
    ∃ t u : State, hostWrite a w s = .next t ∧ completion t = .next u ∧
      clockCycle ⟨false, true, true, a, w⟩ true s = .next u ∧ u.engine.done = true ∧ u.engine.phase = .idle ∧
      u.engine.codeD = generateCode ((List.range s.engine.keyLen.toNat).map fun i => s.engine.key.read i) s.engine.time ∧
      ((Reg.ofAddr a).locked = true → u.engine.lockErr = true)

/-- `70_reset_and_hazards.md` R220: with `rst` high a bus access and a completion in the same cycle have no effect, the
state takes its reset values, reads return the reset values and `irq` is 0. That the outputs do so in the first such
cycle too is the model's reading (DEDUCED, unsafe for that cycle, log entry 7); that the pending events and the values
read are kept is the model's choice (log entries 1 and 3). -/
def Obligations.ResetPinHasPriority : Prop :=
  ∀ (p : Pins) (fires : Bool) (s : State), p.rst = true →
    clockCycle p fires s = .next { s with engine := Engine.reset } ∧ irqPin p s = false ∧
    (p.sel = true → p.we = false → rdataPin p s = some (Engine.reset.readReg (Reg.ofAddr p.addr)))
end

