-- ==== Sys2Proof/Laws/State.lean ====
section
/-! SUPPORT. What each operation of the engine does to each field of the state, one lemma per field. -/

namespace Sys2Proof.Laws

open Sys2Proof.Machine

@[simp] theorem onEngine_engine (s : State) (f : Engine → Engine) : (s.onEngine f).engine = f s.engine := rfl
@[simp] theorem onEngine_script (s : State) (f : Engine → Engine) : (s.onEngine f).script = s.script := rfl
@[simp] theorem onEngine_reads (s : State) (f : Engine → Engine) : (s.onEngine f).reads = s.reads := rfl
@[simp] theorem resetStep_engine (s : State) : s.resetStep.engine = Engine.reset := rfl
@[simp] theorem resetStep_script (s : State) : s.resetStep.script = s.script := rfl
@[simp] theorem resetStep_reads (s : State) : s.resetStep.reads = s.reads := rfl
@[simp] theorem hostRead_engine (a : WordAddr) (s : State) : (hostRead a s).engine = s.engine := rfl
@[simp] theorem hostRead_script (a : WordAddr) (s : State) : (hostRead a s).script = s.script := rfl
@[simp] theorem hostRead_reads (a : WordAddr) (s : State) :
    (hostRead a s).reads = s.engine.readReg (Reg.ofAddr a) :: s.reads := rfl
@[simp] theorem withCommand_engine (s : State) (w : Word) : (s.withCommand w).engine = s.engine := rfl
@[simp] theorem withCommand_script (s : State) (w : Word) :
    (s.withCommand w).script = .access ⟨true, Reg.cmd.addr, w⟩ :: s.script := rfl
@[simp] theorem withCommand_reads (s : State) (w : Word) : (s.withCommand w).reads = s.reads := rfl

@[simp] theorem dropWrite_phase (e : Engine) : (e.dropWrite).phase = e.phase := rfl
@[simp] theorem dropWrite_key (e : Engine) : (e.dropWrite).key = e.key := rfl
@[simp] theorem dropWrite_keyLen (e : Engine) : (e.dropWrite).keyLen = e.keyLen := rfl
@[simp] theorem dropWrite_time (e : Engine) : (e.dropWrite).time = e.time := rfl
@[simp] theorem dropWrite_ieDone (e : Engine) : (e.dropWrite).ieDone = e.ieDone := rfl
@[simp] theorem dropWrite_ieErr (e : Engine) : (e.dropWrite).ieErr = e.ieErr := rfl
@[simp] theorem dropWrite_done (e : Engine) : (e.dropWrite).done = e.done := rfl
@[simp] theorem dropWrite_err (e : Engine) : (e.dropWrite).err = e.err := rfl
@[simp] theorem dropWrite_errCode (e : Engine) : (e.dropWrite).errCode = e.errCode := rfl
@[simp] theorem dropWrite_lockErr (e : Engine) : (e.dropWrite).lockErr = true := rfl
@[simp] theorem dropWrite_illCmd (e : Engine) : (e.dropWrite).illCmd = e.illCmd := rfl
@[simp] theorem dropWrite_codeValid (e : Engine) : (e.dropWrite).codeValid = e.codeValid := rfl
@[simp] theorem dropWrite_codeD (e : Engine) : (e.dropWrite).codeD = e.codeD := rfl

@[simp] theorem flagReserved_phase (e : Engine) : (e.flagReserved).phase = e.phase := rfl
@[simp] theorem flagReserved_key (e : Engine) : (e.flagReserved).key = e.key := rfl
@[simp] theorem flagReserved_keyLen (e : Engine) : (e.flagReserved).keyLen = e.keyLen := rfl
@[simp] theorem flagReserved_time (e : Engine) : (e.flagReserved).time = e.time := rfl
@[simp] theorem flagReserved_ieDone (e : Engine) : (e.flagReserved).ieDone = e.ieDone := rfl
@[simp] theorem flagReserved_ieErr (e : Engine) : (e.flagReserved).ieErr = e.ieErr := rfl
@[simp] theorem flagReserved_done (e : Engine) : (e.flagReserved).done = e.done := rfl
@[simp] theorem flagReserved_err (e : Engine) : (e.flagReserved).err = e.err := rfl
@[simp] theorem flagReserved_errCode (e : Engine) : (e.flagReserved).errCode = e.errCode := rfl
@[simp] theorem flagReserved_lockErr (e : Engine) : (e.flagReserved).lockErr = e.lockErr := rfl
@[simp] theorem flagReserved_illCmd (e : Engine) : (e.flagReserved).illCmd = true := rfl
@[simp] theorem flagReserved_codeValid (e : Engine) : (e.flagReserved).codeValid = e.codeValid := rfl
@[simp] theorem flagReserved_codeD (e : Engine) : (e.flagReserved).codeD = e.codeD := rfl

@[simp] theorem clearCode_phase (e : Engine) : (e.clearCode).phase = e.phase := rfl
@[simp] theorem clearCode_key (e : Engine) : (e.clearCode).key = e.key := rfl
@[simp] theorem clearCode_keyLen (e : Engine) : (e.clearCode).keyLen = e.keyLen := rfl
@[simp] theorem clearCode_time (e : Engine) : (e.clearCode).time = e.time := rfl
@[simp] theorem clearCode_ieDone (e : Engine) : (e.clearCode).ieDone = e.ieDone := rfl
@[simp] theorem clearCode_ieErr (e : Engine) : (e.clearCode).ieErr = e.ieErr := rfl
@[simp] theorem clearCode_done (e : Engine) : (e.clearCode).done = e.done := rfl
@[simp] theorem clearCode_err (e : Engine) : (e.clearCode).err = e.err := rfl
@[simp] theorem clearCode_errCode (e : Engine) : (e.clearCode).errCode = e.errCode := rfl
@[simp] theorem clearCode_lockErr (e : Engine) : (e.clearCode).lockErr = e.lockErr := rfl
@[simp] theorem clearCode_illCmd (e : Engine) : (e.clearCode).illCmd = e.illCmd := rfl
@[simp] theorem clearCode_codeValid (e : Engine) : (e.clearCode).codeValid = false := rfl
@[simp] theorem clearCode_codeD (e : Engine) : (e.clearCode).codeD = Digits.none := rfl

@[simp] theorem clearError_phase (e : Engine) : (e.clearError).phase = e.phase := rfl
@[simp] theorem clearError_key (e : Engine) : (e.clearError).key = e.key := rfl
@[simp] theorem clearError_keyLen (e : Engine) : (e.clearError).keyLen = e.keyLen := rfl
@[simp] theorem clearError_time (e : Engine) : (e.clearError).time = e.time := rfl
@[simp] theorem clearError_ieDone (e : Engine) : (e.clearError).ieDone = e.ieDone := rfl
@[simp] theorem clearError_ieErr (e : Engine) : (e.clearError).ieErr = e.ieErr := rfl
@[simp] theorem clearError_done (e : Engine) : (e.clearError).done = e.done := rfl
@[simp] theorem clearError_err (e : Engine) : (e.clearError).err = false := rfl
@[simp] theorem clearError_errCode (e : Engine) : (e.clearError).errCode = 0 := rfl
@[simp] theorem clearError_lockErr (e : Engine) : (e.clearError).lockErr = e.lockErr := rfl
@[simp] theorem clearError_illCmd (e : Engine) : (e.clearError).illCmd = e.illCmd := rfl
@[simp] theorem clearError_codeValid (e : Engine) : (e.clearError).codeValid = e.codeValid := rfl
@[simp] theorem clearError_codeD (e : Engine) : (e.clearError).codeD = e.codeD := rfl

@[simp] theorem clearDone_phase (e : Engine) : (e.clearDone).phase = e.phase := rfl
@[simp] theorem clearDone_key (e : Engine) : (e.clearDone).key = e.key := rfl
@[simp] theorem clearDone_keyLen (e : Engine) : (e.clearDone).keyLen = e.keyLen := rfl
@[simp] theorem clearDone_time (e : Engine) : (e.clearDone).time = e.time := rfl
@[simp] theorem clearDone_ieDone (e : Engine) : (e.clearDone).ieDone = e.ieDone := rfl
@[simp] theorem clearDone_ieErr (e : Engine) : (e.clearDone).ieErr = e.ieErr := rfl
@[simp] theorem clearDone_done (e : Engine) : (e.clearDone).done = false := rfl
@[simp] theorem clearDone_err (e : Engine) : (e.clearDone).err = e.err := rfl
@[simp] theorem clearDone_errCode (e : Engine) : (e.clearDone).errCode = e.errCode := rfl
@[simp] theorem clearDone_lockErr (e : Engine) : (e.clearDone).lockErr = e.lockErr := rfl
@[simp] theorem clearDone_illCmd (e : Engine) : (e.clearDone).illCmd = e.illCmd := rfl
@[simp] theorem clearDone_codeValid (e : Engine) : (e.clearDone).codeValid = e.codeValid := rfl
@[simp] theorem clearDone_codeD (e : Engine) : (e.clearDone).codeD = e.codeD := rfl

@[simp] theorem clearResult_phase (e : Engine) : (e.clearResult).phase = e.phase := rfl
@[simp] theorem clearResult_key (e : Engine) : (e.clearResult).key = e.key := rfl
@[simp] theorem clearResult_keyLen (e : Engine) : (e.clearResult).keyLen = e.keyLen := rfl
@[simp] theorem clearResult_time (e : Engine) : (e.clearResult).time = e.time := rfl
@[simp] theorem clearResult_ieDone (e : Engine) : (e.clearResult).ieDone = e.ieDone := rfl
@[simp] theorem clearResult_ieErr (e : Engine) : (e.clearResult).ieErr = e.ieErr := rfl
@[simp] theorem clearResult_done (e : Engine) : (e.clearResult).done = false := rfl
@[simp] theorem clearResult_err (e : Engine) : (e.clearResult).err = false := rfl
@[simp] theorem clearResult_errCode (e : Engine) : (e.clearResult).errCode = 0 := rfl
@[simp] theorem clearResult_lockErr (e : Engine) : (e.clearResult).lockErr = e.lockErr := rfl
@[simp] theorem clearResult_illCmd (e : Engine) : (e.clearResult).illCmd = e.illCmd := rfl
@[simp] theorem clearResult_codeValid (e : Engine) : (e.clearResult).codeValid = false := rfl
@[simp] theorem clearResult_codeD (e : Engine) : (e.clearResult).codeD = Digits.none := rfl

@[simp] theorem raise_phase (e : Engine) (k : ErrorKind) : (e.raise k).phase = e.phase := rfl
@[simp] theorem raise_key (e : Engine) (k : ErrorKind) : (e.raise k).key = e.key := rfl
@[simp] theorem raise_keyLen (e : Engine) (k : ErrorKind) : (e.raise k).keyLen = e.keyLen := rfl
@[simp] theorem raise_time (e : Engine) (k : ErrorKind) : (e.raise k).time = e.time := rfl
@[simp] theorem raise_ieDone (e : Engine) (k : ErrorKind) : (e.raise k).ieDone = e.ieDone := rfl
@[simp] theorem raise_ieErr (e : Engine) (k : ErrorKind) : (e.raise k).ieErr = e.ieErr := rfl
@[simp] theorem raise_done (e : Engine) (k : ErrorKind) : (e.raise k).done = e.done := rfl
@[simp] theorem raise_err (e : Engine) (k : ErrorKind) : (e.raise k).err = true := rfl
@[simp] theorem raise_errCode (e : Engine) (k : ErrorKind) : (e.raise k).errCode = k.code := rfl
@[simp] theorem raise_lockErr (e : Engine) (k : ErrorKind) : (e.raise k).lockErr = e.lockErr := rfl
@[simp] theorem raise_illCmd (e : Engine) (k : ErrorKind) : (e.raise k).illCmd = e.illCmd := rfl
@[simp] theorem raise_codeValid (e : Engine) (k : ErrorKind) : (e.raise k).codeValid = e.codeValid := rfl
@[simp] theorem raise_codeD (e : Engine) (k : ErrorKind) : (e.raise k).codeD = e.codeD := rfl

@[simp] theorem eraseInputs_phase (e : Engine) : (e.eraseInputs).phase = e.phase := rfl
@[simp] theorem eraseInputs_key (e : Engine) : (e.eraseInputs).key = [] := rfl
@[simp] theorem eraseInputs_keyLen (e : Engine) : (e.eraseInputs).keyLen = 0 := rfl
@[simp] theorem eraseInputs_time (e : Engine) : (e.eraseInputs).time = 0 := rfl
@[simp] theorem eraseInputs_ieDone (e : Engine) : (e.eraseInputs).ieDone = e.ieDone := rfl
@[simp] theorem eraseInputs_ieErr (e : Engine) : (e.eraseInputs).ieErr = e.ieErr := rfl
@[simp] theorem eraseInputs_done (e : Engine) : (e.eraseInputs).done = e.done := rfl
@[simp] theorem eraseInputs_err (e : Engine) : (e.eraseInputs).err = e.err := rfl
@[simp] theorem eraseInputs_errCode (e : Engine) : (e.eraseInputs).errCode = e.errCode := rfl
@[simp] theorem eraseInputs_lockErr (e : Engine) : (e.eraseInputs).lockErr = e.lockErr := rfl
@[simp] theorem eraseInputs_illCmd (e : Engine) : (e.eraseInputs).illCmd = e.illCmd := rfl
@[simp] theorem eraseInputs_codeValid (e : Engine) : (e.eraseInputs).codeValid = e.codeValid := rfl
@[simp] theorem eraseInputs_codeD (e : Engine) : (e.eraseInputs).codeD = e.codeD := rfl

@[simp] theorem writeTimeHi_phase (e : Engine) (w : Word) : (e.writeTimeHi w).phase = e.phase := rfl
@[simp] theorem writeTimeHi_key (e : Engine) (w : Word) : (e.writeTimeHi w).key = e.key := rfl
@[simp] theorem writeTimeHi_keyLen (e : Engine) (w : Word) : (e.writeTimeHi w).keyLen = e.keyLen := rfl
@[simp] theorem writeTimeHi_time (e : Engine) (w : Word) : (e.writeTimeHi w).time = w ++ e.timeLo := rfl
@[simp] theorem writeTimeHi_ieDone (e : Engine) (w : Word) : (e.writeTimeHi w).ieDone = e.ieDone := rfl
@[simp] theorem writeTimeHi_ieErr (e : Engine) (w : Word) : (e.writeTimeHi w).ieErr = e.ieErr := rfl
@[simp] theorem writeTimeHi_done (e : Engine) (w : Word) : (e.writeTimeHi w).done = e.done := rfl
@[simp] theorem writeTimeHi_err (e : Engine) (w : Word) : (e.writeTimeHi w).err = e.err := rfl
@[simp] theorem writeTimeHi_errCode (e : Engine) (w : Word) : (e.writeTimeHi w).errCode = e.errCode := rfl
@[simp] theorem writeTimeHi_lockErr (e : Engine) (w : Word) : (e.writeTimeHi w).lockErr = e.lockErr := rfl
@[simp] theorem writeTimeHi_illCmd (e : Engine) (w : Word) : (e.writeTimeHi w).illCmd = e.illCmd := rfl
@[simp] theorem writeTimeHi_codeValid (e : Engine) (w : Word) : (e.writeTimeHi w).codeValid = e.codeValid := rfl
@[simp] theorem writeTimeHi_codeD (e : Engine) (w : Word) : (e.writeTimeHi w).codeD = e.codeD := rfl

@[simp] theorem writeTimeLo_phase (e : Engine) (w : Word) : (e.writeTimeLo w).phase = e.phase := rfl
@[simp] theorem writeTimeLo_key (e : Engine) (w : Word) : (e.writeTimeLo w).key = e.key := rfl
@[simp] theorem writeTimeLo_keyLen (e : Engine) (w : Word) : (e.writeTimeLo w).keyLen = e.keyLen := rfl
@[simp] theorem writeTimeLo_time (e : Engine) (w : Word) : (e.writeTimeLo w).time = e.timeHi ++ w := rfl
@[simp] theorem writeTimeLo_ieDone (e : Engine) (w : Word) : (e.writeTimeLo w).ieDone = e.ieDone := rfl
@[simp] theorem writeTimeLo_ieErr (e : Engine) (w : Word) : (e.writeTimeLo w).ieErr = e.ieErr := rfl
@[simp] theorem writeTimeLo_done (e : Engine) (w : Word) : (e.writeTimeLo w).done = e.done := rfl
@[simp] theorem writeTimeLo_err (e : Engine) (w : Word) : (e.writeTimeLo w).err = e.err := rfl
@[simp] theorem writeTimeLo_errCode (e : Engine) (w : Word) : (e.writeTimeLo w).errCode = e.errCode := rfl
@[simp] theorem writeTimeLo_lockErr (e : Engine) (w : Word) : (e.writeTimeLo w).lockErr = e.lockErr := rfl
@[simp] theorem writeTimeLo_illCmd (e : Engine) (w : Word) : (e.writeTimeLo w).illCmd = e.illCmd := rfl
@[simp] theorem writeTimeLo_codeValid (e : Engine) (w : Word) : (e.writeTimeLo w).codeValid = e.codeValid := rfl
@[simp] theorem writeTimeLo_codeD (e : Engine) (w : Word) : (e.writeTimeLo w).codeD = e.codeD := rfl

@[simp] theorem writeKeyLen_phase (e : Engine) (w : Word) : (e.writeKeyLen w).phase = e.phase := rfl
@[simp] theorem writeKeyLen_key (e : Engine) (w : Word) : (e.writeKeyLen w).key = e.key := rfl
@[simp] theorem writeKeyLen_keyLen (e : Engine) (w : Word) : (e.writeKeyLen w).keyLen = w.extractLsb' 0 8 := rfl
@[simp] theorem writeKeyLen_time (e : Engine) (w : Word) : (e.writeKeyLen w).time = e.time := rfl
@[simp] theorem writeKeyLen_ieDone (e : Engine) (w : Word) : (e.writeKeyLen w).ieDone = e.ieDone := rfl
@[simp] theorem writeKeyLen_ieErr (e : Engine) (w : Word) : (e.writeKeyLen w).ieErr = e.ieErr := rfl
@[simp] theorem writeKeyLen_done (e : Engine) (w : Word) : (e.writeKeyLen w).done = e.done := rfl
@[simp] theorem writeKeyLen_err (e : Engine) (w : Word) : (e.writeKeyLen w).err = e.err := rfl
@[simp] theorem writeKeyLen_errCode (e : Engine) (w : Word) : (e.writeKeyLen w).errCode = e.errCode := rfl
@[simp] theorem writeKeyLen_lockErr (e : Engine) (w : Word) : (e.writeKeyLen w).lockErr = e.lockErr := rfl
@[simp] theorem writeKeyLen_illCmd (e : Engine) (w : Word) : (e.writeKeyLen w).illCmd = e.illCmd := rfl
@[simp] theorem writeKeyLen_codeValid (e : Engine) (w : Word) : (e.writeKeyLen w).codeValid = e.codeValid := rfl
@[simp] theorem writeKeyLen_codeD (e : Engine) (w : Word) : (e.writeKeyLen w).codeD = e.codeD := rfl

@[simp] theorem writeKeyWord_phase (e : Engine) (j : BitVec 4) (w : Word) : (e.writeKeyWord j w).phase = e.phase := rfl
@[simp] theorem writeKeyWord_keyLen (e : Engine) (j : BitVec 4) (w : Word) :
    (e.writeKeyWord j w).keyLen = e.keyLen := rfl
@[simp] theorem writeKeyWord_time (e : Engine) (j : BitVec 4) (w : Word) : (e.writeKeyWord j w).time = e.time := rfl
@[simp] theorem writeKeyWord_ieDone (e : Engine) (j : BitVec 4) (w : Word) :
    (e.writeKeyWord j w).ieDone = e.ieDone := rfl
@[simp] theorem writeKeyWord_ieErr (e : Engine) (j : BitVec 4) (w : Word) : (e.writeKeyWord j w).ieErr = e.ieErr := rfl
@[simp] theorem writeKeyWord_done (e : Engine) (j : BitVec 4) (w : Word) : (e.writeKeyWord j w).done = e.done := rfl
@[simp] theorem writeKeyWord_err (e : Engine) (j : BitVec 4) (w : Word) : (e.writeKeyWord j w).err = e.err := rfl
@[simp] theorem writeKeyWord_errCode (e : Engine) (j : BitVec 4) (w : Word) :
    (e.writeKeyWord j w).errCode = e.errCode := rfl
@[simp] theorem writeKeyWord_lockErr (e : Engine) (j : BitVec 4) (w : Word) :
    (e.writeKeyWord j w).lockErr = e.lockErr := rfl
@[simp] theorem writeKeyWord_illCmd (e : Engine) (j : BitVec 4) (w : Word) :
    (e.writeKeyWord j w).illCmd = e.illCmd := rfl
@[simp] theorem writeKeyWord_codeValid (e : Engine) (j : BitVec 4) (w : Word) :
    (e.writeKeyWord j w).codeValid = e.codeValid := rfl
@[simp] theorem writeKeyWord_codeD (e : Engine) (j : BitVec 4) (w : Word) : (e.writeKeyWord j w).codeD = e.codeD := rfl

@[simp] theorem writeStatus_phase (e : Engine) (w : Word) : (e.writeStatus w).phase = e.phase := rfl
@[simp] theorem writeStatus_key (e : Engine) (w : Word) : (e.writeStatus w).key = e.key := rfl
@[simp] theorem writeStatus_keyLen (e : Engine) (w : Word) : (e.writeStatus w).keyLen = e.keyLen := rfl
@[simp] theorem writeStatus_time (e : Engine) (w : Word) : (e.writeStatus w).time = e.time := rfl
@[simp] theorem writeStatus_ieDone (e : Engine) (w : Word) : (e.writeStatus w).ieDone = e.ieDone := rfl
@[simp] theorem writeStatus_ieErr (e : Engine) (w : Word) : (e.writeStatus w).ieErr = e.ieErr := rfl
@[simp] theorem writeStatus_done (e : Engine) (w : Word) : (e.writeStatus w).done = (e.done && !w.getLsbD 1) := rfl
@[simp] theorem writeStatus_err (e : Engine) (w : Word) : (e.writeStatus w).err = (e.err && !w.getLsbD 2) := rfl
@[simp] theorem writeStatus_errCode (e : Engine) (w : Word) :
    (e.writeStatus w).errCode = if w.getLsbD 2 then 0 else e.errCode := rfl
@[simp] theorem writeStatus_lockErr (e : Engine) (w : Word) :
    (e.writeStatus w).lockErr = (e.lockErr && !w.getLsbD 3) := rfl
@[simp] theorem writeStatus_illCmd (e : Engine) (w : Word) :
    (e.writeStatus w).illCmd = (e.illCmd && !w.getLsbD 4) := rfl
@[simp] theorem writeStatus_codeValid (e : Engine) (w : Word) : (e.writeStatus w).codeValid = e.codeValid := rfl
@[simp] theorem writeStatus_codeD (e : Engine) (w : Word) : (e.writeStatus w).codeD = e.codeD := rfl

@[simp] theorem writeIrqEn_phase (e : Engine) (w : Word) : (e.writeIrqEn w).phase = e.phase := rfl
@[simp] theorem writeIrqEn_key (e : Engine) (w : Word) : (e.writeIrqEn w).key = e.key := rfl
@[simp] theorem writeIrqEn_keyLen (e : Engine) (w : Word) : (e.writeIrqEn w).keyLen = e.keyLen := rfl
@[simp] theorem writeIrqEn_time (e : Engine) (w : Word) : (e.writeIrqEn w).time = e.time := rfl
@[simp] theorem writeIrqEn_ieDone (e : Engine) (w : Word) : (e.writeIrqEn w).ieDone = w.getLsbD 0 := rfl
@[simp] theorem writeIrqEn_ieErr (e : Engine) (w : Word) : (e.writeIrqEn w).ieErr = w.getLsbD 1 := rfl
@[simp] theorem writeIrqEn_done (e : Engine) (w : Word) : (e.writeIrqEn w).done = e.done := rfl
@[simp] theorem writeIrqEn_err (e : Engine) (w : Word) : (e.writeIrqEn w).err = e.err := rfl
@[simp] theorem writeIrqEn_errCode (e : Engine) (w : Word) : (e.writeIrqEn w).errCode = e.errCode := rfl
@[simp] theorem writeIrqEn_lockErr (e : Engine) (w : Word) : (e.writeIrqEn w).lockErr = e.lockErr := rfl
@[simp] theorem writeIrqEn_illCmd (e : Engine) (w : Word) : (e.writeIrqEn w).illCmd = e.illCmd := rfl
@[simp] theorem writeIrqEn_codeValid (e : Engine) (w : Word) : (e.writeIrqEn w).codeValid = e.codeValid := rfl
@[simp] theorem writeIrqEn_codeD (e : Engine) (w : Word) : (e.writeIrqEn w).codeD = e.codeD := rfl

@[simp] theorem publish_phase (e : Engine) : (e.publish).phase = .idle := rfl
@[simp] theorem publish_key (e : Engine) : (e.publish).key = e.key := rfl
@[simp] theorem publish_keyLen (e : Engine) : (e.publish).keyLen = e.keyLen := rfl
@[simp] theorem publish_time (e : Engine) : (e.publish).time = e.time := rfl
@[simp] theorem publish_ieDone (e : Engine) : (e.publish).ieDone = e.ieDone := rfl
@[simp] theorem publish_ieErr (e : Engine) : (e.publish).ieErr = e.ieErr := rfl
@[simp] theorem publish_done (e : Engine) : (e.publish).done = true := rfl
@[simp] theorem publish_err (e : Engine) : (e.publish).err = e.err := rfl
@[simp] theorem publish_errCode (e : Engine) : (e.publish).errCode = e.errCode := rfl
@[simp] theorem publish_lockErr (e : Engine) : (e.publish).lockErr = e.lockErr := rfl
@[simp] theorem publish_illCmd (e : Engine) : (e.publish).illCmd = e.illCmd := rfl
@[simp] theorem publish_codeValid (e : Engine) : (e.publish).codeValid = true := rfl
@[simp] theorem publish_codeD (e : Engine) : (e.publish).codeD = generateCode e.keyBytes e.time := rfl

end Sys2Proof.Laws
end

