-- ==== Sys2Proof/Laws/Bus.lean ====
section
/-! SUPPORT. What the shared operations of the bus and the commands can do, each said once. -/

namespace Sys2Proof.Laws

open Sys2Proof.Machine

theorem busy_of_run {e : Engine} (h : e.phase = .run) : e.busy = true := by simp [Engine.busy, h]

theorem busy_of_idle {e : Engine} (h : e.phase = .idle) : e.busy = false := by simp [Engine.busy, h]

theorem busy_iff (e : Engine) : e.busy = true ↔ e.phase = .run := by simp [Engine.busy]

theorem phase_cases (e : Engine) : e.phase = .idle ∨ e.phase = .run := by
  cases e.phase <;> simp

/-- A command in IDLE has its effect. -/
theorem command_idle {s : State} (h : s.engine.phase = .idle) (f : Engine → Engine) :
    s.command f = .next (s.onEngine f) := by simp [State.command, busy_of_idle h]

/-- A command in RUN is dropped. -/
theorem command_run {s : State} (h : s.engine.phase = .run) (f : Engine → Engine) :
    s.command f = .next (s.onEngine Engine.dropWrite) := by simp [State.command, busy_of_run h]

/-- The sign of `TIME` as a number. -/
theorem beforeEpoch_iff (e : Engine) : e.beforeEpoch = true ↔ 2 ^ 63 ≤ e.time.toNat := by
  simp [Engine.beforeEpoch, BitVec.msb_eq_decide]

/-- The domain of `generate_code` as inequalities. -/
theorem inputsValid_iff (e : Engine) :
    e.inputsValid = true ↔ 1 ≤ e.keyLen.toNat ∧ e.keyLen.toNat ≤ 64 ∧ e.time.toNat < 2 ^ 63 := by
  have hb := beforeEpoch_iff e
  have hk : Config.keyMax = 64 := rfl
  rw [Engine.inputsValid, hk]
  simp only [Bool.and_eq_true, decide_eq_true_eq, Bool.not_eq_true']
  constructor
  · rintro ⟨⟨h1, h2⟩, h3⟩
    refine ⟨h1, h2, ?_⟩
    by_contra hc
    rw [hb.2 (by omega)] at h3
    cases h3
  · rintro ⟨h1, h2, h3⟩
    refine ⟨⟨h1, h2⟩, ?_⟩
    cases hx : e.beforeEpoch
    · rfl
    · have := hb.1 hx; omega

/-- What validation answers, by the first cause that holds. -/
theorem validate_cases (e : Engine) :
    (e.keyLen.toNat = 0 ∧ e.validate = some .invalidKey) ∨
    (e.keyLen.toNat ≠ 0 ∧ 2 ^ 63 ≤ e.time.toNat ∧ e.validate = some .invalidTimestamp) ∨
    (65 ≤ e.keyLen.toNat ∧ e.time.toNat < 2 ^ 63 ∧ e.validate = some .keyError) ∨
    (1 ≤ e.keyLen.toNat ∧ e.keyLen.toNat ≤ 64 ∧ e.time.toNat < 2 ^ 63 ∧ e.validate = none) := by
  have hb := beforeEpoch_iff e
  by_cases h0 : e.keyLen = 0
  · left; simp [Engine.validate, h0]
  have h0' : e.keyLen.toNat ≠ 0 := fun h => h0 (BitVec.eq_of_toNat_eq (by simpa using h))
  right
  by_cases h1 : e.beforeEpoch = true
  · left; exact ⟨h0', hb.1 h1, by rw [Engine.validate, if_neg h0, if_pos h1]⟩
  have h1' : e.time.toNat < 2 ^ 63 := by
    by_contra hc; exact h1 (hb.2 (by omega))
  right
  by_cases h2 : Config.keyMax < e.keyLen.toNat
  · left; exact ⟨h2, h1', by rw [Engine.validate, if_neg h0, if_neg h1, if_pos h2]⟩
  · right
    have hk : Config.keyMax = 64 := rfl
    refine ⟨by omega, by omega, h1', by rw [Engine.validate, if_neg h0, if_neg h1, if_neg h2]⟩

/-- Acceptance with an error. -/
theorem accept_of_some {e : Engine} {k : ErrorKind} (h : e.validate = some k) : e.accept = e.clearResult.raise k := by
  simp [Engine.accept, h]

/-- Acceptance without an error. -/
theorem accept_of_none {e : Engine} (h : e.validate = none) :
    e.accept = { e.clearResult with phase := .run } := by simp [Engine.accept, h]

/-- Everything completion can do. -/
theorem completion_cases {s t : State} (h : completion s = .next t) :
    s.engine.phase = .run ∧ 1 ≤ s.engine.keyLen.toNat ∧ s.engine.keyLen.toNat ≤ 64 ∧ s.engine.time.toNat < 2 ^ 63 ∧
      t = s.onEngine Engine.publish := by
  unfold completion at h
  split at h
  · cases h
  · next hp =>
    split at h
    · next hv =>
      cases h
      obtain ⟨h1, h2, h3⟩ := (inputsValid_iff _).1 hv
      exact ⟨hp, h1, h2, h3, rfl⟩
    · cases h

/-- Completion in RUN on valid inputs. -/
theorem completion_run {s : State} (hp : s.engine.phase = .run) (h1 : 1 ≤ s.engine.keyLen.toNat)
    (h2 : s.engine.keyLen.toNat ≤ 64) (h3 : s.engine.time.toNat < 2 ^ 63) :
    completion s = .next (s.onEngine Engine.publish) := by
  have hv := (inputsValid_iff s.engine).2 ⟨h1, h2, h3⟩
  simp [completion, hp, hv]

/-- The decoder, by its three words. -/
theorem decode_cases (w : Word) :
    (w = 0x00000000#32 ∧ decode w = .ok .nop) ∨ (w = 0x00000001#32 ∧ decode w = .ok .generate) ∨
    (w = 0x00000002#32 ∧ decode w = .ok .zeroize) ∨
    (w ≠ 0x00000000#32 ∧ w ≠ 0x00000001#32 ∧ w ≠ 0x00000002#32 ∧ decode w = .error (.reservedCommand w)) := by
  by_cases h0 : w = 0x00000000#32
  · left; exact ⟨h0, by rw [h0]; rfl⟩
  by_cases h1 : w = 0x00000001#32
  · right; left; exact ⟨h1, by rw [h1]; rfl⟩
  by_cases h2 : w = 0x00000002#32
  · right; right; left; exact ⟨h2, by rw [h2]; rfl⟩
  · right; right; right; exact ⟨h0, h1, h2, by simp [decode, h0, h1, h2]⟩

@[simp] theorem ofAddr_cmd : Reg.ofAddr 0x00#6 = .cmd := rfl
@[simp] theorem ofAddr_status : Reg.ofAddr 0x01#6 = .status := rfl
@[simp] theorem ofAddr_irqEn : Reg.ofAddr 0x02#6 = .irqEn := rfl
@[simp] theorem ofAddr_keyLen : Reg.ofAddr 0x03#6 = .keyLen := rfl
@[simp] theorem ofAddr_timeHi : Reg.ofAddr 0x04#6 = .timeHi := rfl
@[simp] theorem ofAddr_timeLo : Reg.ofAddr 0x05#6 = .timeLo := rfl
@[simp] theorem ofAddr_codeBcd : Reg.ofAddr 0x06#6 = .codeBcd := rfl
@[simp] theorem ofAddr_codeAscii0 : Reg.ofAddr 0x07#6 = .codeAscii0 := rfl
@[simp] theorem ofAddr_codeAscii1 : Reg.ofAddr 0x08#6 = .codeAscii1 := rfl
@[simp] theorem ofAddr_step : Reg.ofAddr 0x09#6 = .step := rfl
@[simp] theorem ofAddr_caps : Reg.ofAddr 0x0A#6 = .caps := rfl

/-- The address map is one to one. -/
theorem addr_ofAddr (a : WordAddr) : (Reg.ofAddr a).addr = a := by
  revert a; decide

/-- A word is `CMD` exactly at word address 0. -/
theorem ofAddr_cmd_iff (a : WordAddr) : Reg.ofAddr a = .cmd ↔ a = 0x00#6 := by
  revert a; decide

@[simp] theorem ofAddr_keyW (j : BitVec 4) : Reg.ofAddr (Reg.keyW j).addr = .keyW j := by
  revert j; decide

/-- A write to a locked register in RUN is dropped. -/
theorem hostWrite_locked {a : WordAddr} {s : State} (hl : (Reg.ofAddr a).locked = true) (hp : s.engine.phase = .run)
    (w : Word) : hostWrite a w s = .next (s.onEngine Engine.dropWrite) := by
  simp [hostWrite, hl, busy_of_run hp]

/-- A write to a register other than `CMD` that is not locked. -/
theorem hostWrite_store {a : WordAddr} {s : State} (hc : a ≠ 0x00#6)
    (hl : (Reg.ofAddr a).locked = false ∨ s.engine.phase = .idle) (w : Word) :
    hostWrite a w s = .next (s.onEngine fun e => e.writeReg (Reg.ofAddr a) w) := by
  have hb : ((Reg.ofAddr a).locked && s.engine.busy) = false := by
    rcases hl with h | h
    · simp [h]
    · simp [busy_of_idle h]
  have hc' : Reg.ofAddr a ≠ .cmd := fun h => hc ((ofAddr_cmd_iff a).1 h)
  unfold hostWrite
  rw [hb]
  simp only [Bool.false_eq_true, if_false]

/-- The same with the register named. -/
theorem hostWrite_reg {a : WordAddr} {r : Reg} {s : State} (hr : Reg.ofAddr a = r) (hc : r ≠ .cmd)
    (hl : r.locked = false ∨ s.engine.phase = .idle) (w : Word) :
    hostWrite a w s = .next (s.onEngine fun e => e.writeReg r w) := by
  subst hr
  exact hostWrite_store (fun h => hc ((ofAddr_cmd_iff a).2 h)) hl w

/-- A write to `CMD` in IDLE executes the word. -/
theorem hostWrite_cmd {s : State} (hp : s.engine.phase = .idle) (w : Word) :
    hostWrite 0x00#6 w s = execCommand w s := by
  have h : Reg.ofAddr 0x00#6 = .cmd := by decide
  simp [hostWrite, h, busy_of_idle hp]

/-- Everything a host write can do. -/
theorem hostWrite_cases (a : WordAddr) (w : Word) (s : State) :
    (s.engine.phase = .run ∧ (Reg.ofAddr a).locked = true ∧ hostWrite a w s = .next (s.onEngine Engine.dropWrite)) ∨
    (s.engine.phase = .idle ∧ a = 0x00#6 ∧ w = 0x00000000#32 ∧ hostWrite a w s = .next s) ∨
    (s.engine.phase = .idle ∧ a = 0x00#6 ∧ w = 0x00000001#32 ∧
      hostWrite a w s = .next (s.onEngine Engine.accept)) ∨
    (s.engine.phase = .idle ∧ a = 0x00#6 ∧ w = 0x00000002#32 ∧
      hostWrite a w s = .next (s.onEngine fun e => e.eraseInputs.clearResult)) ∨
    (s.engine.phase = .idle ∧ a = 0x00#6 ∧ w ≠ 0x00000000#32 ∧ w ≠ 0x00000001#32 ∧ w ≠ 0x00000002#32 ∧
      hostWrite a w s = .next (s.onEngine Engine.flagReserved)) ∨
    (((Reg.ofAddr a).locked = false ∨ s.engine.phase = .idle) ∧ a ≠ 0x00#6 ∧
      hostWrite a w s = .next (s.onEngine fun e => e.writeReg (Reg.ofAddr a) w)) := by
  rcases phase_cases s.engine with hp | hp
  · by_cases hc : a = 0x00#6
    · subst hc
      right
      rcases decode_cases w with ⟨h, hd⟩ | ⟨h, hd⟩ | ⟨h, hd⟩ | ⟨h0, h1, h2, hd⟩
      · left; exact ⟨hp, rfl, h, by rw [hostWrite_cmd hp, execCommand, hd]; exact command_idle hp id⟩
      · right; left; exact ⟨hp, rfl, h, by rw [hostWrite_cmd hp, execCommand, hd]; exact command_idle hp _⟩
      · right; right; left; exact ⟨hp, rfl, h, by rw [hostWrite_cmd hp, execCommand, hd]; exact command_idle hp _⟩
      · right; right; right; left; exact ⟨hp, rfl, h0, h1, h2, by rw [hostWrite_cmd hp, execCommand, hd]⟩
    · right; right; right; right; right
      exact ⟨.inr hp, hc, hostWrite_store hc (.inr hp) w⟩
  · cases hl : (Reg.ofAddr a).locked
    · have hc : a ≠ 0x00#6 := by rintro rfl; revert hl; decide
      right; right; right; right; right
      exact ⟨.inl rfl, hc, hostWrite_store hc (.inl hl) w⟩
    · left; exact ⟨hp, rfl, hostWrite_locked hl hp w⟩

/-- A host access always answers a next state. -/
theorem hostAccess_next (t : Txn) (s : State) : ∃ u, hostAccess t s = .next u := by
  unfold hostAccess
  split
  · rcases hostWrite_cases t.addr t.wdata s with h | h | h | h | h | h
    · exact ⟨_, h.2.2⟩
    · exact ⟨_, h.2.2.2⟩
    · exact ⟨_, h.2.2.2⟩
    · exact ⟨_, h.2.2.2⟩
    · exact ⟨_, h.2.2.2.2.2⟩
    · exact ⟨_, h.2.2⟩
  · exact ⟨_, rfl⟩

/-- A host access touches neither the pending events nor, but for a read, the values read. -/
theorem hostAccess_script {t : Txn} {s u : State} (h : hostAccess t s = .next u) : u.script = s.script := by
  unfold hostAccess at h
  split at h
  · rcases hostWrite_cases t.addr t.wdata s with c | c | c | c | c | c
    · rw [c.2.2] at h; cases h; rfl
    · rw [c.2.2.2] at h; cases h; rfl
    · rw [c.2.2.2] at h; cases h; rfl
    · rw [c.2.2.2] at h; cases h; rfl
    · rw [c.2.2.2.2.2] at h; cases h; rfl
    · rw [c.2.2] at h; cases h; rfl
  · cases h; rfl

/-- In RUN no host access writes an input or the phase, and none disturbs the operation. -/
theorem hostAccess_run {t : Txn} {s u : State} (hp : s.engine.phase = .run) (h : hostAccess t s = .next u) :
    u.engine.phase = .run ∧ u.engine.key = s.engine.key ∧ u.engine.keyLen = s.engine.keyLen ∧
      u.engine.time = s.engine.time := by
  unfold hostAccess at h
  split at h
  · rcases hostWrite_cases t.addr t.wdata s with c | c | c | c | c | c
    · rw [c.2.2] at h; cases h; exact ⟨hp, rfl, rfl, rfl⟩
    · rw [c.1] at hp; cases hp
    · rw [c.1] at hp; cases hp
    · rw [c.1] at hp; cases hp
    · rw [c.1] at hp; cases hp
    · obtain ⟨hl, hc, he⟩ := c
      rw [he] at h; cases h
      rcases hl with hl | hl
      · cases hr : Reg.ofAddr t.addr <;> rw [hr] at hl <;> first | exact ⟨hp, rfl, rfl, rfl⟩ | cases hl
      · rw [hl] at hp; cases hp
  · cases h; exact ⟨hp, rfl, rfl, rfl⟩

/-- A write of `STATUS`, in either phase. -/
theorem hostWrite_status (s : State) (w : Word) : hostWrite 0x01 w s =
    .next (s.onEngine fun e => e.writeStatus w) := hostWrite_reg ofAddr_status (by decide) (.inl rfl) w

/-- A write of `IRQ_EN`, in either phase. -/
theorem hostWrite_irqEn (s : State) (w : Word) : hostWrite 0x02 w s = .next (s.onEngine fun e => e.writeIrqEn w) :=
    hostWrite_reg ofAddr_irqEn (by decide) (.inl rfl) w

/-- The locked addresses. -/
theorem locked_iff : ∀ a : WordAddr, (Reg.ofAddr a).locked = true ↔ (a = 0x00 ∨ a = 0x03 ∨ a = 0x04 ∨ a = 0x05 ∨
    (0x10 ≤ a.toNat ∧ a.toNat < 0x20)) := by decide

/-- What acceptance of GENERATE keeps. -/
theorem accept_frame (e : Engine) : e.accept.ieDone = e.ieDone ∧ e.accept.ieErr = e.ieErr ∧ e.accept.illCmd =
    e.illCmd ∧ e.accept.lockErr = e.lockErr ∧ e.accept.keyLen = e.keyLen ∧ e.accept.time = e.time ∧ e.accept.key =
    e.key := by
  unfold Engine.accept; split <;> simp

/-- What acceptance of GENERATE clears. -/
theorem accept_result (e : Engine) : e.accept.done = false ∧ e.accept.codeValid = false ∧ e.accept.codeD =
    Digits.none := by
  unfold Engine.accept; split <;> exact ⟨rfl, rfl, rfl⟩

/-- How acceptance of GENERATE ends. -/
theorem accept_cases (e : Engine) (hp : e.phase = .idle) : (e.accept.phase = .idle ∧ e.accept.err = true ∧
    e.accept.errCode ≠ 0) ∨ (1 ≤ e.keyLen.toNat ∧ e.keyLen.toNat ≤ 64 ∧ e.time.toNat < 2^63 ∧ e.accept.phase =
    .run ∧ e.accept.err = false) := by
  rcases validate_cases e with ⟨_, hv⟩ | ⟨_, _, hv⟩ | ⟨_, _, hv⟩ | ⟨a1, a2, a3, hv⟩
  · left; rw [accept_of_some hv]; exact ⟨hp, rfl, (by decide : ErrorKind.code .invalidKey ≠ 0)⟩
  · left; rw [accept_of_some hv]; exact ⟨hp, rfl, (by decide : ErrorKind.code .invalidTimestamp ≠ 0)⟩
  · left; rw [accept_of_some hv]; exact ⟨hp, rfl, (by decide : ErrorKind.code .keyError ≠ 0)⟩
  · right; rw [accept_of_none hv]; exact ⟨a1, a2, a3, rfl, rfl⟩

/-- A register write does not depend on the phase. -/
theorem writeReg_phase (e : Engine) (r : Reg) (w : Word) (p : Phase) : ({e with phase :=
    p} : Engine).writeReg r w = { e.writeReg r w with phase := p } := by
  cases r <;> rfl

/-- What no register write changes. -/
theorem writeReg_keeps (e : Engine) (r : Reg) (w : Word) : (e.writeReg r w).phase = e.phase ∧
    (e.writeReg r w).codeValid = e.codeValid ∧ (e.writeReg r w).codeD = e.codeD := by
  cases r <;> exact ⟨rfl, rfl, rfl⟩

/-- No register write sets a result flag. -/
theorem writeReg_flags (e : Engine) (r : Reg) (w : Word) : ((e.writeReg r w).done = true → e.done = true) ∧
    ((e.writeReg r w).err = true → e.err = true) := by
  cases r <;> (simp [Engine.writeReg]; try tauto)

/-- Only a `STATUS` write changes a sticky flag. -/
theorem writeReg_sticky (e : Engine) (a : WordAddr) (w : Word) : ((e.writeReg (Reg.ofAddr a) w).lockErr =
    e.lockErr ∨ a = 1 ∧ (e.writeReg (Reg.ofAddr a) w).lockErr = (e.lockErr && !w.getLsbD 3)) ∧
    ((e.writeReg (Reg.ofAddr a) w).illCmd = e.illCmd ∨ a = 1 ∧ (e.writeReg (Reg.ofAddr a) w).illCmd =
    (e.illCmd && !w.getLsbD 4)) := by
  have := addr_ofAddr a
  cases h : Reg.ofAddr a <;> rw [h] at this
  case status => exact ⟨.inr ⟨this.symm, rfl⟩, .inr ⟨this.symm, rfl⟩⟩
  all_goals exact ⟨.inl rfl, .inl rfl⟩

/-- Only a `STATUS` write clears a result flag or the error code among the register writes. -/
theorem writeReg_results (e : Engine) (a : WordAddr) (w : Word) :
    ((e.writeReg (Reg.ofAddr a) w).done = e.done ∨
      a = 1 ∧ (e.writeReg (Reg.ofAddr a) w).done = (e.done && !w.getLsbD 1)) ∧
    (((e.writeReg (Reg.ofAddr a) w).err = e.err ∧ (e.writeReg (Reg.ofAddr a) w).errCode = e.errCode) ∨
      a = 1 ∧ (e.writeReg (Reg.ofAddr a) w).err = (e.err && !w.getLsbD 2) ∧
        (e.writeReg (Reg.ofAddr a) w).errCode = if w.getLsbD 2 then 0 else e.errCode) := by
  have := addr_ofAddr a
  cases h : Reg.ofAddr a <;> rw [h] at this
  case status => exact ⟨.inr ⟨this.symm, rfl⟩, .inr ⟨this.symm, rfl, rfl⟩⟩
  all_goals exact ⟨.inl rfl, .inl ⟨rfl, rfl⟩⟩

/-- Which addresses write which input. -/
theorem writeReg_inputs (e : Engine) (a : WordAddr) (w : Word) : ((e.writeReg (Reg.ofAddr a) w).key = e.key ∨
    ((Reg.ofAddr a).locked = true ∧ 0x10 ≤ a.toNat ∧ a.toNat < 0x20)) ∧ ((e.writeReg (Reg.ofAddr a) w).keyLen =
    e.keyLen ∨ a = 3) ∧ ((e.writeReg (Reg.ofAddr a) w).time = e.time ∨ a = 4 ∨ a = 5) := by
  have := addr_ofAddr a
  cases h : Reg.ofAddr a <;> rw [h] at this
  case keyLen => exact ⟨.inl rfl, .inr this.symm, .inl rfl⟩
  case timeHi => exact ⟨.inl rfl, .inl rfl, .inr (.inl this.symm)⟩
  case timeLo => exact ⟨.inl rfl, .inl rfl, .inr (.inr this.symm)⟩
  case keyW j =>
    refine ⟨.inr ⟨rfl, ?_⟩, .inl rfl, .inl rfl⟩
    rw [← this]; clear this h; revert j; decide
  all_goals exact ⟨.inl rfl, .inl rfl, .inl rfl⟩

end Sys2Proof.Laws
end

