-- ==== Sys2Proof/Laws/Memory.lean ====
section
/-! SUPPORT. Key memory: read after write, the canonical form and that every operation keeps it. -/

namespace Sys2Proof.Laws

open Sys2Proof.Machine

/-- Below its lower bound a canonical memory reads 0. -/
theorem read_of_lt {m : Memory} {lo a : Nat} (h : m.wfFrom lo = true) (ha : a < lo) : m.read a = 0#8 := by
  induction m generalizing lo with
  | nil => rfl
  | cons c m ih =>
    obtain ⟨b, v⟩ := c
    simp only [Memory.wfFrom, Bool.and_eq_true, decide_eq_true_eq] at h
    simp only [Memory.read]
    rw [if_neg (by omega)]
    exact ih h.2 (by omega)

/-- A canonical memory reads 0 outside the 64 bytes. -/
theorem read_of_ge_64 {m : Memory} {lo a : Nat} (h : m.wfFrom lo = true) (ha : 64 ≤ a) : m.read a = 0#8 := by
  induction m generalizing lo with
  | nil => rfl
  | cons c m ih =>
    obtain ⟨b, v⟩ := c
    simp only [Memory.wfFrom, Bool.and_eq_true, decide_eq_true_eq] at h
    simp only [Memory.read]
    rw [if_neg (by omega)]
    exact ih h.2

/-- A lower bound may be lowered. -/
theorem wfFrom_mono {m : Memory} {lo lo' : Nat} (h : m.wfFrom lo = true) (hl : lo' ≤ lo) : m.wfFrom lo' = true := by
  cases m with
  | nil => rfl
  | cons c m =>
    simp only [Memory.wfFrom, Bool.and_eq_true, decide_eq_true_eq] at h ⊢
    exact ⟨⟨⟨by omega, h.1.1.2⟩, h.1.2⟩, h.2⟩

/-- A write keeps the canonical form. -/
theorem wfFrom_write {m : Memory} {lo a : Nat} (h : m.wfFrom lo = true) (hl : lo ≤ a) (ha : a < 64) (v : Byte) :
    (m.write a v).wfFrom lo = true := by
  induction m generalizing lo with
  | nil => by_cases hv : v = 0#8 <;> simp [Memory.write, Memory.wfFrom, hv, hl, ha]
  | cons c m ih =>
    obtain ⟨b, w⟩ := c
    simp only [Memory.wfFrom, Bool.and_eq_true, decide_eq_true_eq] at h
    obtain ⟨⟨⟨h1, h2⟩, h3⟩, h4⟩ := h
    simp only [Memory.write]
    split
    · split
      · simp only [Memory.wfFrom, Bool.and_eq_true, decide_eq_true_eq]
        exact ⟨⟨⟨h1, h2⟩, h3⟩, h4⟩
      · next hab hv =>
        simp only [bne_iff_ne] at h3
        simp only [Memory.wfFrom, Bool.and_eq_true, decide_eq_true_eq, bne_iff_ne]
        exact ⟨⟨⟨hl, ha⟩, hv⟩, ⟨⟨by omega, h2⟩, h3⟩, h4⟩
    · split
      · next hab =>
        subst hab
        split
        · exact wfFrom_mono h4 (by omega)
        · next hv => simp [Memory.wfFrom, hl, ha, hv, h4]
      · simp only [bne_iff_ne] at h3
        simp [Memory.wfFrom, h1, h2, h3, ih h4 (by omega)]

/-- Reading the byte just written gives the value written. -/
theorem read_write_same {m : Memory} {lo : Nat} (h : m.wfFrom lo = true) (a : Nat) (v : Byte) :
    (m.write a v).read a = v := by
  induction m generalizing lo with
  | nil => by_cases hv : v = 0#8 <;> simp [Memory.write, Memory.read, hv]
  | cons c m ih =>
    obtain ⟨b, w⟩ := c
    simp only [Memory.wfFrom, Bool.and_eq_true, decide_eq_true_eq] at h
    simp only [Memory.write]
    split
    · next hab =>
      split
      · next hv => rw [hv]; simp only [Memory.read]; rw [if_neg (by omega)]; exact read_of_lt h.2 (by omega)
      · simp [Memory.read]
    · split
      · next hab =>
        split
        · next hv => rw [hv]; exact read_of_lt h.2 (by omega)
        · simp [Memory.read]
      · next hne => simp [Memory.read, hne, ih h.2]

/-- Every other byte reads as before. -/
theorem read_write_other {m : Memory} {a b : Nat} (hab : b ≠ a) (v : Byte) : (m.write a v).read b = m.read b := by
  induction m with
  | nil => by_cases hv : v = 0#8 <;> simp [Memory.write, Memory.read, hv, hab]
  | cons c m ih =>
    obtain ⟨d, w⟩ := c
    simp only [Memory.write]
    split
    · split
      · rfl
      · simp [Memory.read, hab]
    · split
      · next h =>
        subst h
        split <;> simp [Memory.read, hab]
      · simp [Memory.read, ih]

/-- Two canonical memories that read alike are the same list. -/
theorem memory_ext {m n : Memory} {lo : Nat} (hm : m.wfFrom lo = true) (hn : n.wfFrom lo = true)
    (h : ∀ a, m.read a = n.read a) : m = n := by
  induction m generalizing n lo with
  | nil =>
    cases n with
    | nil => rfl
    | cons c n =>
      obtain ⟨b, v⟩ := c
      simp only [Memory.wfFrom, Bool.and_eq_true, decide_eq_true_eq, bne_iff_ne] at hn
      have := h b
      simp [Memory.read] at this
      exact absurd this.symm hn.1.2
  | cons c m ih =>
    obtain ⟨b, v⟩ := c
    have hm0 := hm
    simp only [Memory.wfFrom, Bool.and_eq_true, decide_eq_true_eq, bne_iff_ne] at hm
    cases n with
    | nil =>
      have := h b
      simp [Memory.read] at this
      exact absurd this hm.1.2
    | cons d n =>
      obtain ⟨e, w⟩ := d
      have hn0 := hn
      simp only [Memory.wfFrom, Bool.and_eq_true, decide_eq_true_eq, bne_iff_ne] at hn
      have hbe : b = e := by
        rcases Nat.lt_trichotomy b e with hlt | heq | hgt
        · have h1 := h b
          simp only [Memory.read, if_true] at h1
          rw [if_neg (by omega), read_of_lt hn.2 (by omega)] at h1
          exact absurd h1 hm.1.2
        · exact heq
        · have h1 := h e
          simp only [Memory.read, if_true] at h1
          rw [if_neg (by omega), read_of_lt hm.2 (by omega)] at h1
          exact absurd h1.symm hn.1.2
      subst hbe
      have hvw : v = w := by simpa [Memory.read] using h b
      subst hvw
      refine congrArg _ (ih hm.2 hn.2 fun a => ?_)
      by_cases ha : a = b
      · subst ha
        rw [read_of_lt hm.2 (by omega), read_of_lt hn.2 (by omega)]
      · simpa [Memory.read, ha] using h a

/-- A write of a key word keeps key memory in canonical form. -/
theorem wf_writeKeyWord {e : Engine} (h : e.key.wf = true) (j : BitVec 4) (w : Word) :
    (e.writeKeyWord j w).key.wf = true := by
  have hj : j.toNat < 16 := j.isLt
  simp only [Engine.writeKeyWord, Memory.wf]
  exact wfFrom_write (wfFrom_write (wfFrom_write (wfFrom_write h (by omega) (by omega) _) (by omega) (by omega) _)
    (by omega) (by omega) _) (by omega) (by omega) _

/-- What the four bytes of a key word read after a write of it. -/
theorem read_writeKeyWord {e : Engine} (h : e.key.wf = true) (j : BitVec 4) (w : Word) (a : Nat) :
    (e.writeKeyWord j w).key.read a =
      if a = 4 * j.toNat then w.extractLsb' 24 8
      else if a = 4 * j.toNat + 1 then w.extractLsb' 16 8
      else if a = 4 * j.toNat + 2 then w.extractLsb' 8 8
      else if a = 4 * j.toNat + 3 then w.extractLsb' 0 8
      else e.key.read a := by
  have hj : j.toNat < 16 := j.isLt
  simp only [Engine.writeKeyWord]
  have w1 := wfFrom_write (a := 4 * j.toNat) h (Nat.zero_le _) (by omega) (w.extractLsb' 24 8)
  have w2 := wfFrom_write (a := 4 * j.toNat + 1) w1 (Nat.zero_le _) (by omega) (w.extractLsb' 16 8)
  have w3 := wfFrom_write (a := 4 * j.toNat + 2) w2 (Nat.zero_le _) (by omega) (w.extractLsb' 8 8)
  by_cases h3 : a = 4 * j.toNat + 3
  · subst h3
    rw [read_write_same w3, if_neg (by omega), if_neg (by omega), if_neg (by omega), if_pos rfl]
  rw [read_write_other h3]
  by_cases h2 : a = 4 * j.toNat + 2
  · subst h2
    rw [read_write_same w2, if_neg (by omega), if_neg (by omega), if_pos rfl]
  rw [read_write_other h2]
  by_cases h1 : a = 4 * j.toNat + 1
  · subst h1
    rw [read_write_same w1, if_neg (by omega), if_pos rfl]
  rw [read_write_other h1]
  by_cases h0 : a = 4 * j.toNat
  · subst h0
    rw [read_write_same h, if_pos rfl]
  rw [read_write_other h0, if_neg h0, if_neg h1, if_neg h2, if_neg h3]

end Sys2Proof.Laws
end

