-- ==== Sys2Proof/Laws/Inv.lean ====
section
/-! SUPPORT. The invariant of `10_state.md` R44, operation by operation. -/

namespace Sys2Proof.Laws

open Sys2Proof.Machine

/-- The engine after reset meets the invariant. -/
theorem inv_reset : Engine.reset.Inv := by decide

/-- Every digit of "no code" is 0. -/
theorem none_zero : ∀ k : Fin 6, Digits.none[k] = 0 := by decide

/-- Every digit of "no code" is decimal. -/
theorem none_le : ∀ k : Fin 6, Digits.none[k].toNat ≤ 9 := by decide

/-- The formatter yields decimal digits. -/
theorem fmt_le (v : Word) (k : Fin 6) : (formatCode v)[k].toNat ≤ 9 := by
  simp [formatCode]; omega

/-- Completion keeps the invariant. -/
theorem inv_publish {e : Engine} (h : e.Inv) (hp : e.phase = .run) : e.publish.Inv := by
  obtain ⟨h1, h2, h3, h4, h5⟩ := h
  obtain ⟨a1, a2, a3, a4, a5, a6, a7⟩ := h1 hp
  have he : e.publish.err ≠ true := by simp [a2]
  exact ⟨fun hh => (by cases hh), h2, ⟨fun hh => (by cases hh), fun k => fmt_le _ k⟩,
    ⟨fun _ => rfl, fun hh => absurd hh he, fun hh => absurd hh.2 he⟩, h5⟩

/-- Discarding the result keeps the invariant. -/
theorem inv_clear {e : Engine} (h : e.Inv) (hp : e.phase = .idle) : e.clearResult.Inv := by
  obtain ⟨h1, h2, h3, h4, h5⟩ := h
  refine ⟨fun hh => (by change e.phase = _ at hh; simp [hp] at hh), by simp [Engine.ErrorAgrees],
      ⟨fun _ => none_zero, none_le⟩, by simp [Engine.OutcomeExclusive], h5⟩

/-- Error entry after that keeps it, for every kind that is ever raised. -/
theorem inv_raise {e : Engine} (h : e.Inv) (hp : e.phase =
    .idle) (k : ErrorKind) (hk : k ≠ .digestTooShort) : (e.clearResult.raise k).Inv := by
  obtain ⟨h1, h2, h3, h4, h5⟩ := h
  refine ⟨fun hh => (by change e.phase = _ at hh; simp [hp] at hh),
      by simp [Engine.ErrorAgrees]; cases k <;> simp [ErrorKind.code] at *, ⟨fun _ => none_zero, none_le⟩,
      by simp [Engine.OutcomeExclusive], h5⟩

/-- Acceptance of GENERATE keeps the invariant. -/
theorem inv_accept {e : Engine} (h : e.Inv) (hp : e.phase = .idle) : e.accept.Inv := by
  rcases validate_cases e with ⟨_, hv⟩ | ⟨_, _, hv⟩ | ⟨_, _, hv⟩ | ⟨a1, a2, a3, hv⟩
  · rw [accept_of_some hv]; exact inv_raise h hp _ (by decide)
  · rw [accept_of_some hv]; exact inv_raise h hp _ (by decide)
  · rw [accept_of_some hv]; exact inv_raise h hp _ (by decide)
  · rw [accept_of_none hv]
    have hc := inv_clear h hp
    obtain ⟨h1, h2, h3, h4, h5⟩ := hc
    refine ⟨fun _ => ⟨rfl, rfl, rfl, rfl, a1, a2, ?_⟩, h2, h3, h4, h5⟩
    have : e.time.msb = false := by rw [BitVec.msb_eq_decide]; simp; omega
    exact this

/-- ZEROIZE keeps the invariant. -/
theorem inv_zeroize {e : Engine} (h : e.Inv) (hp : e.phase = .idle) : e.eraseInputs.clearResult.Inv := by
  refine inv_clear (e := e.eraseInputs) ?_ hp
  obtain ⟨h1, h2, h3, h4, h5⟩ := h
  exact ⟨fun hh => (by change e.phase = _ at hh; rw [hp] at hh; cases hh), h2, h3, h4, rfl⟩

/-- A register write that is not dropped keeps the invariant. -/
theorem inv_writeReg {e : Engine} (h : e.Inv) (r : Reg) (w : Word) (hl : r.locked = false ∨ e.phase =
    .idle) : (e.writeReg r w).Inv := by
  have hw := wf_writeKeyWord h.2.2.2.2
  obtain ⟨h1, h2, h3, h4, h5⟩ := h
  cases r with
  | cmd => exact ⟨h1, h2, h3, h4, h5⟩
  | codeBcd => exact ⟨h1, h2, h3, h4, h5⟩
  | codeAscii0 => exact ⟨h1, h2, h3, h4, h5⟩
  | codeAscii1 => exact ⟨h1, h2, h3, h4, h5⟩
  | step => exact ⟨h1, h2, h3, h4, h5⟩
  | caps => exact ⟨h1, h2, h3, h4, h5⟩
  | reserved => exact ⟨h1, h2, h3, h4, h5⟩
  | irqEn => exact ⟨h1, h2, h3, h4, h5⟩
  | status =>
    refine ⟨fun hp => ?_, ?_, h3, ?_, h5⟩
    · obtain ⟨a1, a2, a3, a4, a5, a6, a7⟩ := h1 hp
      refine ⟨?_, ?_, ?_, a4, a5, a6, a7⟩ <;> simp [Engine.writeReg, a1, a2, a3]
    · simp only [Engine.ErrorAgrees, Engine.writeReg, writeStatus_err, writeStatus_errCode] at h2 ⊢
      cases w.getLsbD 2
      · simpa using h2
      · simp
    · simp only [Engine.OutcomeExclusive, Engine.writeReg, writeStatus_err, writeStatus_done,
        writeStatus_codeValid] at h4 ⊢
      cases w.getLsbD 2 <;> cases w.getLsbD 1 <;> simp_all
  | keyLen =>
    have hp : e.phase = .idle := by rcases hl with h | h; cases h; exact h
    exact ⟨fun hh => (by change e.phase = _ at hh; rw [hp] at hh; cases hh), h2, h3, h4, h5⟩
  | timeHi =>
    have hp : e.phase = .idle := by rcases hl with h | h; cases h; exact h
    exact ⟨fun hh => (by change e.phase = _ at hh; rw [hp] at hh; cases hh), h2, h3, h4, h5⟩
  | timeLo =>
    have hp : e.phase = .idle := by rcases hl with h | h; cases h; exact h
    exact ⟨fun hh => (by change e.phase = _ at hh; rw [hp] at hh; cases hh), h2, h3, h4, h5⟩
  | keyW j =>
    have hp : e.phase = .idle := by rcases hl with h | h; cases h; exact h
    exact ⟨fun hh => (by change e.phase = _ at hh; rw [hp] at hh; cases hh), h2, h3, h4, hw j w⟩

/-- Completion in RUN from a state that meets the invariant. -/
theorem compl_inv {s : State} (hi : s.Inv) (hp : s.engine.phase = .run) : completion s =
    .next (s.onEngine Engine.publish) := by
  obtain ⟨_, _, _, _, a5, a6, a7⟩ := hi.1 hp
  refine completion_run hp a5 a6 ?_
  rw [BitVec.msb_eq_decide] at a7; simp at a7; omega

end Sys2Proof.Laws
end

