-- ==== Sys2Proof/Laws/PerInstr.lean ====
section
/-! SUPPORT. One statement about every command as syntax: its word and its row of the table (`30_encoding.md` R92,
R94). -/

namespace Sys2Proof.Laws.EncodingRow

/-- The command's word has a zero `ZERO` field, and the table has exactly one row for it, with that word as its match
and the full mask. -/
def Statement (i : Instr) : Prop :=
  (encode i).extractLsb' 8 24 = 0 ∧ commandTable.filter (fun r => r.command == i) = [⟨i, encode i, 0xFFFFFFFF⟩]

theorem nop : Statement .nop := by unfold Statement; decide

theorem generate : Statement .generate := by unfold Statement; decide

theorem zeroize : Statement .zeroize := by unfold Statement; decide

end Sys2Proof.Laws.EncodingRow
end

