-- ==== Sys2Proof/Laws/Words.lean ====
section
/-! SUPPORT. The bits and bytes of the words that registers read and stages pack, one lemma per word. -/

namespace Sys2Proof.Laws

open Sys2Proof.Machine

/-- The halves of a 64-bit concatenation. -/
theorem extract_hi (hi lo : Word) : (hi ++ lo).extractLsb' 32 32 = hi := by
  apply BitVec.eq_of_getLsbD_eq
  intro i h
  simp only [BitVec.getLsbD_extractLsb', BitVec.getLsbD_append, h, decide_true, Bool.true_and]
  rw [if_neg (by omega)]
  exact congrArg _ (by omega)

theorem extract_lo (hi lo : Word) : (hi ++ lo).extractLsb' 0 32 = lo := by
  apply BitVec.eq_of_getLsbD_eq
  intro i h
  simp only [BitVec.getLsbD_extractLsb', BitVec.getLsbD_append, h, decide_true, Bool.true_and]
  rw [if_pos (by omega)]
  exact congrArg _ (by omega)

/-- A 64-bit number is its two halves. -/
theorem halves (t : BitVec 64) : t.extractLsb' 32 32 ++ t.extractLsb' 0 32 = t := by
  apply BitVec.eq_of_getLsbD_eq
  intro i h
  simp only [BitVec.getLsbD_append, BitVec.getLsbD_extractLsb']
  split
  · next hi => simp [hi]
  · next hi =>
    have h1 : i - 32 < 32 := by omega
    have h2 : 32 + (i - 32) = i := by omega
    simp [h1, h2]

@[simp] theorem timeHi_writeTimeHi (e : Engine) (w : Word) : (e.writeTimeHi w).timeHi = w := extract_hi _ _
@[simp] theorem timeLo_writeTimeHi (e : Engine) (w : Word) : (e.writeTimeHi w).timeLo = e.timeLo := extract_lo _ _
@[simp] theorem timeLo_writeTimeLo (e : Engine) (w : Word) : (e.writeTimeLo w).timeLo = w := extract_lo _ _
@[simp] theorem timeHi_writeTimeLo (e : Engine) (w : Word) : (e.writeTimeLo w).timeHi = e.timeHi := extract_hi _ _

/-- Both halves written, in this order, are the whole of `TIME`. -/
theorem writeTime_both (e : Engine) (hi lo : Word) : ((e.writeTimeHi hi).writeTimeLo lo).time = hi ++ lo := by
  rw [writeTimeLo_time, timeHi_writeTimeHi]

/-- A concatenation of two words as a number. -/
theorem append_toNat (hi lo : Word) : (hi ++ lo).toNat = hi.toNat * 2 ^ 32 + lo.toNat := by
  rw [BitVec.toNat_append, ← Nat.shiftLeft_add_eq_or_of_lt lo.isLt, Nat.shiftLeft_eq]

/-- Bit `i` of what `STATUS` reads. -/
theorem statusWord_bit (e : Engine) (i : Nat) :
    e.statusWord.getLsbD i =
      if i = 0 then e.busy else if i = 1 then e.done else if i = 2 then e.err else if i = 3 then e.lockErr
      else if i = 4 then e.illCmd else if i < 8 then false else if i < 11 then e.errCode.getLsbD (i - 8) else false := by
  simp only [Engine.statusWord, BitVec.getLsbD_append]
  rcases Nat.lt_or_ge i 11 with h | h
  · interval_cases i <;> simp
  · obtain ⟨k, rfl⟩ := Nat.exists_eq_add_of_le' h
    simp

/-- Bit `i` of what `IRQ_EN` reads. -/
theorem irqEnWord_bit (e : Engine) (i : Nat) :
    e.irqEnWord.getLsbD i = if i = 0 then e.ieDone else if i = 1 then e.ieErr else false := by
  simp only [Engine.irqEnWord, BitVec.getLsbD_append]
  rcases i with _ | _ | i <;> simp

/-- Bit `i` of what `KEYLEN` reads. -/
theorem keyLenWord_bit (e : Engine) (i : Nat) :
    e.keyLenWord.getLsbD i = if i < 8 then e.keyLen.getLsbD i else false := by
  simp only [Engine.keyLenWord, BitVec.getLsbD_append, BitVec.getLsbD_zero]

/-- Bit `i` of what `CODE_BCD` reads. -/
theorem codeBcdWord_bit (e : Engine) (i : Nat) :
    e.codeBcdWord.getLsbD i =
      if i < 4 then e.codeD[5].getLsbD i else if i < 8 then e.codeD[4].getLsbD (i - 4)
      else if i < 12 then e.codeD[3].getLsbD (i - 8) else if i < 16 then e.codeD[2].getLsbD (i - 12)
      else if i < 20 then e.codeD[1].getLsbD (i - 16) else if i < 24 then e.codeD[0].getLsbD (i - 20)
      else if i < 31 then false else if i = 31 then e.codeValid else false := by
  simp only [Engine.codeBcdWord, BitVec.getLsbD_append]
  rcases Nat.lt_or_ge i 32 with h | h
  · interval_cases i <;> simp
  · obtain ⟨k, rfl⟩ := Nat.exists_eq_add_of_le' h
    simp

/-- The four bytes of a packed word. -/
theorem be32_byte0 (a b c d : Byte) : (be32 a b c d).extractLsb' 24 8 = a := by
  apply BitVec.eq_of_getLsbD_eq
  intro i hi
  simp only [BitVec.getLsbD_extractLsb', be32, BitVec.getLsbD_append, hi, decide_true, Bool.true_and]
  rw [if_neg (by omega), if_neg (by omega), if_neg (by omega)]
  exact congrArg _ (by omega)

theorem be32_byte1 (a b c d : Byte) : (be32 a b c d).extractLsb' 16 8 = b := by
  apply BitVec.eq_of_getLsbD_eq
  intro i hi
  simp only [BitVec.getLsbD_extractLsb', be32, BitVec.getLsbD_append, hi, decide_true, Bool.true_and]
  rw [if_neg (by omega), if_neg (by omega), if_pos (by omega)]
  exact congrArg _ (by omega)

theorem be32_byte2 (a b c d : Byte) : (be32 a b c d).extractLsb' 8 8 = c := by
  apply BitVec.eq_of_getLsbD_eq
  intro i hi
  simp only [BitVec.getLsbD_extractLsb', be32, BitVec.getLsbD_append, hi, decide_true, Bool.true_and]
  rw [if_neg (by omega), if_pos (by omega)]
  exact congrArg _ (by omega)

theorem be32_byte3 (a b c d : Byte) : (be32 a b c d).extractLsb' 0 8 = d := by
  apply BitVec.eq_of_getLsbD_eq
  intro i hi
  simp only [BitVec.getLsbD_extractLsb', be32, BitVec.getLsbD_append, hi, decide_true, Bool.true_and]
  rw [if_pos (by omega)]
  exact congrArg _ (by omega)

/-- A packed word as a number. -/
theorem be32_toNat (a b c d : Byte) :
    (be32 a b c d).toNat = a.toNat * 2 ^ 24 + b.toNat * 2 ^ 16 + c.toNat * 2 ^ 8 + d.toNat := by
  have hb := b.isLt
  have hc := c.isLt
  have hd := d.isLt
  have e : (be32 a b c d).toNat = (((a.toNat * 256 + b.toNat) * 256 + c.toNat) * 256 + d.toNat) := by
    show (a ++ b ++ c ++ d).toNat = _
    rw [BitVec.toNat_append, BitVec.toNat_append, BitVec.toNat_append]
    rw [← Nat.shiftLeft_add_eq_or_of_lt hb, ← Nat.shiftLeft_add_eq_or_of_lt hc, ← Nat.shiftLeft_add_eq_or_of_lt hd]
    simp only [Nat.shiftLeft_eq]
  rw [e]; omega

/-- The rotation of R9 is rotation to the left. -/
theorem rotl32_eq_rotateLeft {n : Nat} (x : Word) (h : n < 32) : rotl32 x n = x.rotateLeft n := by
  rw [rotl32, BitVec.rotateLeft_def, Nat.mod_eq_of_lt h]

/-- Byte `j` of a 64-bit number, most significant first. -/
theorem bytesBE64_get (v : BitVec 64) (j : Nat) (h : j < 8) :
    (bytesBE64 v)[j].toNat = v.toNat / 2 ^ (8 * (7 - j)) % 256 := by
  simp [bytesBE64, Nat.shiftRight_eq_div_pow]

end Sys2Proof.Laws
end

