-- ==== Sys2Proof/Laws/Step.lean ====
section
/-! SUPPORT. Everything a step can do, said once, and what follows for runs. -/

namespace Sys2Proof.Laws

open Sys2Proof.Machine

/-- The bit `poll` goes by is `BUSY`. -/
theorem statusBit_busy (e : Engine) : (e.readReg .status).getLsbD 0 = e.busy := statusWord_bit e 0

/-- A read of `poll` in one record update. -/
theorem pollRead_eq (more : Nat) (s : State) :
    pollRead more s =
      { s with script := afterPoll more s.engine.busy s.script, reads := s.engine.readReg .status :: s.reads } := by
  rw [pollRead, statusBit_busy]; rfl

/-- With `BUSY = 0` the loop is over. -/
@[simp] theorem afterPoll_done (more : Nat) (rest : List Event) : afterPoll more false rest = rest := rfl

/-- With `BUSY = 1` and the latency over, completion comes next. -/
@[simp] theorem afterPoll_zero (rest : List Event) : afterPoll 0 true rest = .run :: .poll 0 :: rest := rfl

/-- With `BUSY = 1` before that, the next read comes next. -/
@[simp] theorem afterPoll_succ (n : Nat) (rest : List Event) : afterPoll (n + 1) true rest = .poll n :: rest := rfl

/-- Everything a step that answers a next state can do. -/
theorem step_cases {s t : State} (h : step s = .next t) :
    (s.script = [] ∧ s.engine.phase = .idle ∧ t = s) ∨
    (∃ rest, ((s.script = [] ∧ rest = []) ∨ s.script = .run :: rest) ∧ s.engine.phase = .run ∧
      1 ≤ s.engine.keyLen.toNat ∧ s.engine.keyLen.toNat ≤ 64 ∧ s.engine.time.toNat < 2 ^ 63 ∧
      t = { s with engine := s.engine.publish, script := rest }) ∨
    (∃ rest, s.script = .reset :: rest ∧ t = { s with engine := Engine.reset, script := rest }) ∨
    (∃ a d rest, s.script = .access ⟨false, a, d⟩ :: rest ∧
      t = { s with script := rest, reads := s.engine.readReg (Reg.ofAddr a) :: s.reads }) ∨
    (∃ more rest, s.script = .poll more :: rest ∧
      t = { s with script := afterPoll more s.engine.busy rest, reads := s.engine.readReg .status :: s.reads }) ∨
    (∃ a w rest, s.script = .access ⟨true, a, w⟩ :: rest ∧ hostWrite a w { s with script := rest } = .next t) := by
  unfold step at h
  split at h
  · next hs =>
    unfold engineTurn at h
    split at h
    · next hp =>
      obtain ⟨_, h1, h2, h3, rfl⟩ := completion_cases h
      right; left
      exact ⟨[], .inl ⟨hs, rfl⟩, hp, h1, h2, h3, by simp [State.onEngine, hs]⟩
    · next hp => cases h; exact .inl ⟨hs, hp, rfl⟩
  · next ev rest hs =>
    cases ev with
    | access x =>
      obtain ⟨we, a, w⟩ := x
      right; right; right
      cases we
      · left
        simp only [takeEvent, hostAccess, Bool.false_eq_true, if_false] at h
        cases h
        exact ⟨a, w, rest, hs, rfl⟩
      · right; right
        exact ⟨a, w, rest, hs, by simpa [takeEvent, hostAccess] using h⟩
    | run =>
      obtain ⟨hp, h1, h2, h3, rfl⟩ := completion_cases h
      right; left
      exact ⟨rest, .inr hs, hp, h1, h2, h3, rfl⟩
    | reset =>
      right; right; left
      simp only [takeEvent] at h
      cases h
      exact ⟨rest, hs, rfl⟩
    | poll more =>
      right; right; right; right; left
      simp only [takeEvent, pollRead_eq] at h
      cases h
      exact ⟨more, rest, hs, rfl⟩

theorem step_access {s : State} {t : Txn} {rest : List Event} (h : s.script = .access t :: rest) :
    step s = hostAccess t { s with script := rest } := by simp [step, h, takeEvent]

theorem step_run {s : State} {rest : List Event} (h : s.script = .run :: rest) :
    step s = completion { s with script := rest } := by simp [step, h, takeEvent]

theorem step_reset {s : State} {rest : List Event} (h : s.script = .reset :: rest) :
    step s = .next { engine := Engine.reset, script := rest, reads := s.reads } := by
  simp [step, h, takeEvent, State.resetStep, State.onEngine]

theorem step_poll {s : State} {more : Nat} {rest : List Event} (h : s.script = .poll more :: rest) :
    step s = .next { s with
      script := afterPoll more s.engine.busy rest, reads := s.engine.readReg .status :: s.reads } := by
  simp only [step, h, takeEvent, pollRead_eq]

theorem step_empty_run {s : State} (h : s.script = []) (hp : s.engine.phase = .run) : step s = completion s := by
  simp [step, h, engineTurn, hp]

theorem step_empty_idle {s : State} (h : s.script = []) (hp : s.engine.phase = .idle) : step s = .next s := by
  simp [step, h, engineTurn, hp]

theorem run_zero (s : State) : core.run 0 s = .next s := rfl

/-- One more step at the front of a run. -/
theorem run_succ {s t : State} (h : step s = .next t) (n : Nat) : core.run (n + 1) s = core.run n t := by
  have hc : core.step s = .next t := h
  simp only [Host.Core.run, hc]

/-- The first step of a run that answers a next state answers one. -/
theorem run_succ_cases {n : Nat} {s t : State} (h : core.run (n + 1) s = .next t) :
    ∃ u, step s = .next u ∧ core.run n u = .next t := by
  cases hs : step s with
  | next u => exact ⟨u, rfl, by rw [← run_succ hs]; exact h⟩
  | fault r =>
    have hc : core.step s = .fault r := hs
    simp only [Host.Core.run, hc] at h
    cases h
  | refused r =>
    have hc : core.step s = .refused r := hs
    simp only [Host.Core.run, hc] at h
    cases h

/-- Runs in sequence. -/
theorem run_append {m : Nat} {s t : State} (h : core.run m s = .next t) (n : Nat) :
    core.run (m + n) s = core.run n t := by
  induction m generalizing s with
  | zero => rw [run_zero] at h; cases h; rw [Nat.zero_add]
  | succ m ih =>
    obtain ⟨u, hu, hr⟩ := run_succ_cases h
    rw [Nat.add_right_comm, run_succ hu]
    exact ih hr

/-- What every step keeps holds along every run. -/
theorem run_induction {P : State → Prop} (hstep : ∀ s t, P s → step s = .next t → P t) {n : Nat} {s t : State}
    (hs : P s) (h : core.run n s = .next t) : P t := by
  induction n generalizing s with
  | zero => rw [run_zero] at h; cases h; exact hs
  | succ n ih =>
    obtain ⟨u, hu, hr⟩ := run_succ_cases h
    exact ih (hstep s u hs hu) hr

end Sys2Proof.Laws
end

