-- ==== Sys2Proof/Laws/Script.lean ====
section
/-! SUPPORT. What one line of the script notation does. -/

namespace Sys2Proof.Laws

open Sys2Proof.Machine

/-- A `wr` line to a register other than `CMD`, in IDLE. -/
theorem step_wr {s : State} {r : Reg} {v : Word} {rest : List Event} (hs : s.script = wr r v :: rest)
    (hr : Reg.ofAddr r.addr = r) (hc : r ≠ .cmd) (hp : s.engine.phase = .idle) :
    step s = .next { engine := s.engine.writeReg r v, script := rest, reads := s.reads } := by
  rw [step_access hs]
  exact hostWrite_reg (s := { s with script := rest }) hr hc (.inr hp) v

/-- A `wr CMD` line in IDLE whose word decodes. -/
theorem step_wr_cmd {s : State} {v : Word} {rest : List Event} {i : Instr} (hs : s.script = wr .cmd v :: rest)
    (hd : decode v = .ok i) (hp : s.engine.phase = .idle) : step s = exec i { s with script := rest } := by
  rw [step_access hs]
  refine (hostWrite_cmd (s := { s with script := rest }) hp v).trans ?_
  rw [execCommand, hd]

theorem loadableKey_iff (bytes : List Byte) : loadableKey bytes = true ↔ bytes.length ≤ 64 := by
  have hk : Config.keyMax = 64 := rfl
  rw [loadableKey, hk]
  exact decide_eq_true_iff

end Sys2Proof.Laws
end

