-- ==== Sys2Proof/Laws/Stages.lean ====
section
/-! SUPPORT. The stages: SHA-1 schedule, rounds, blocks and padding, and key preparation. -/

namespace Sys2Proof.Laws

open Sys2Proof.Machine

/-- Four bytes make a word. -/
theorem wordsOf_length : ∀ (b : List Byte), (wordsOf b).length = b.length / 4 := by
  intro b
  induction b using wordsOf.induct with
  | case1 b0 b1 b2 b3 rest ih => simp [wordsOf, ih]; omega
  | case2 b h =>
    rcases b with _ | ⟨_, _ | ⟨_, _ | ⟨_, _ | ⟨_, rest⟩⟩⟩⟩
    · rfl
    · simp [wordsOf]
    · simp [wordsOf]
    · simp [wordsOf]
    · exact absurd rfl (h _ _ _ _ _)

/-- Word `t` of a block is its bytes `4t` to `4t + 3`, the first most significant. -/
theorem wordsOf_get : ∀ (b : List Byte) (t : Nat), 4 * t + 4 ≤ b.length → (wordsOf b)[t]? =
    some (be32 (b.getD (4*t) 0) (b.getD (4*t+1) 0) (b.getD (4*t+2) 0) (b.getD (4*t+3) 0)) := by
  intro b
  induction b using wordsOf.induct with
  | case1 b0 b1 b2 b3 rest ih =>
    intro t h
    cases t with
    | zero => simp [wordsOf]
    | succ t =>
      simp only [wordsOf, List.getElem?_cons_succ]
      rw [ih t (by simp at h; omega)]
      simp [show 4 * (t+1) = 4 * t + 4 by omega, Nat.add_right_comm]
  | case2 b h =>
    intro t ht
    rcases b with _ | ⟨_, _ | ⟨_, _ | ⟨_, _ | ⟨_, rest⟩⟩⟩⟩
    · simp at ht
    · simp at ht
    · simp at ht
    · simp at ht
    · exact absurd rfl (h _ _ _ _ _)

/-- The schedule grows by one word a step. -/
theorem extend_length (n : Nat) (ws : List Word) : (extendSchedule n ws).length = ws.length + n := by
  induction n generalizing ws with
  | zero => rfl
  | succ n ih => simp [extendSchedule, ih]; omega

/-- The words so far stay where they are. -/
theorem extend_suffix (n : Nat) (ws : List Word) : ∃ new, extendSchedule n ws = new ++ ws ∧ new.length = n := by
  induction n generalizing ws with
  | zero => exact ⟨[], rfl, rfl⟩
  | succ n ih =>
    obtain ⟨new, h1, h2⟩ := ih (nextWord ws :: ws)
    exact ⟨new ++ [nextWord ws], by simp [extendSchedule, h1], by simp [h2]⟩

/-- Each later schedule word by the recurrence of R124. -/
theorem extend_get (n : Nat) (ws : List Word) (t : Nat) (h1 : ws.length ≤ t) (h2 : t < ws.length + n) (h16 : 16 ≤ ws.length) :
   (extendSchedule n ws).reverse.getD t 0 = rotl32 ((extendSchedule n ws).reverse.getD (t-3) 0 ^^^
       (extendSchedule n ws).reverse.getD (t-8) 0 ^^^ (extendSchedule n ws).reverse.getD (t-14) 0 ^^^
       (extendSchedule n ws).reverse.getD (t-16) 0) 1 := by
  induction n generalizing ws with
  | zero => omega
  | succ n ih =>
    by_cases h : t = ws.length
    · subst h
      obtain ⟨new, e1, e2⟩ := extend_suffix n (nextWord ws :: ws)
      have : ∀ k, k < ws.length + 1 → (extendSchedule (n+1) ws).reverse.getD k 0 =
          (nextWord ws :: ws).getD (ws.length - k) 0 := by
        intro k hk
        simp only [extendSchedule, e1, List.reverse_append]
        rw [List.getD_append _ _ _ _ (by simp; omega)]
        simp only [List.getD_eq_getElem?_getD]
        rw [List.getElem?_reverse (by simp; omega)]
        congr 2
      rw [this _ (by omega), this _ (by omega), this _ (by omega), this _ (by omega), this _ (by omega)]
      rw [show ws.length - ws.length = 0 by omega, show ws.length - (ws.length - 3) = 3 by omega,
          show ws.length - (ws.length - 8) = 8 by omega, show ws.length - (ws.length - 14) = 14 by omega,
          show ws.length - (ws.length - 16) = 16 by omega]
      rfl
    · exact ih (nextWord ws :: ws) (by simp; omega) (by simp; omega) (by simp; omega)

/-- The last round of a run of rounds. -/
theorem rounds_append (t : Nat) (xs : List Word) (x : Word) (v : Hash) : sha1Rounds t (xs ++ [x]) v =
    sha1Round (t + xs.length) x (sha1Rounds t xs v) := by
  induction xs generalizing t v with
  | nil => rfl
  | cons y ys ih => simp only [List.cons_append, sha1Rounds, ih, List.length_cons]; congr 1; omega

/-- Cutting a whole number of blocks. -/
theorem blocks_spec (n : Nat) (m : List Byte) (h : m.length = 64 * n) : (blocks n m).flatten = m ∧
    ∀ b ∈ blocks n m, b.length = 64 := by
  induction n generalizing m with
  | zero => simp at h; simp [blocks, h]
  | succ n ih =>
    obtain ⟨h1, h2⟩ := ih (m.drop 64) (by simp; omega)
    have hk : Config.blockBytes = 64 := rfl
    refine ⟨by simp [blocks, hk, h1], ?_⟩
    intro b hb
    simp only [blocks, hk, List.mem_cons] at hb
    rcases hb with rfl | hb
    · simp; omega
    · exact h2 b hb

/-- The bytes of a digest are those of its five words. -/
theorem digest_toList (h : Hash) : h.digest.toList = (bytesBE32 h.h0).toList ++ (bytesBE32 h.h1).toList ++
    (bytesBE32 h.h2).toList ++ (bytesBE32 h.h3).toList ++ (bytesBE32 h.h4).toList := by
  have : ∀ (a b c d e : Vector Byte 4), (a ++ b ++ c ++ d ++ e : Vector Byte 20).toList = a.toList ++ b.toList ++
      c.toList ++ d.toList ++ e.toList := by
    intro a b c d e
    exact Vector.toList_append.trans (congrArg (· ++ e.toList) (Vector.toList_append.trans
      (congrArg (· ++ d.toList) (Vector.toList_append.trans (congrArg (· ++ c.toList) Vector.toList_append)))))
  exact this _ _ _ _ _

/-- The bytes of a word, most significant first. -/
theorem bytesBE32_toList (x : Word) : (bytesBE32 x).toList = [x.extractLsb' 24 8, x.extractLsb' 16 8,
    x.extractLsb' 8 8, x.extractLsb' 0 8] := by
  have byte_ext (n : Nat) : (x >>> n).setWidth 8 = x.extractLsb' n 8 := by
    apply BitVec.eq_of_getLsbD_eq; intro i hi; simp [hi]
  have : (bytesBE32 x).toList = [(x >>> 24).setWidth 8, (x >>> 16).setWidth 8, (x >>> 8).setWidth 8,
      (x >>> 0).setWidth 8] := rfl
  rw [this, byte_ext, byte_ext, byte_ext, byte_ext]

/-- A key of at most one block is used as it is. -/
theorem prepareKey_short {key : List Byte} (h : key.length ≤ 64) : prepareKey key = key ++
    List.replicate (64 - key.length) 0 := by
  have hk : Config.blockBytes = 64 := rfl
  rw [prepareKey, hk, if_neg (by omega)]

/-- Padding, unfolded. -/
theorem pad_eq (m : List Byte) : pad m = m ++ [0x80] ++ List.replicate (padZeros m.length) 0 ++
    (bytesBE64 (BitVec.ofNat 64 (8 * m.length))).toList := rfl

/-- The hash of one block and at most 55 further bytes is two compressions. -/
theorem sha1_two (p m : List Byte) (hp : p.length = 64) (hm : m.length ≤ 55) :
   sha1 (p ++ m) = (compress (compress Hash.initial p) (m ++ [0x80] ++ List.replicate (55 - m.length) 0 ++
       (bytesBE64 (BitVec.ofNat 64 (8 * (64 + m.length)))).toList)).digest := by
  have hz : padZeros (p ++ m).length = 55 - m.length := by simp [padZeros, hp]; omega
  have hpad : pad (p ++ m) = p ++ (m ++ [0x80] ++ List.replicate (55 - m.length) 0 ++
      (bytesBE64 (BitVec.ofNat 64 (8 * (64 + m.length)))).toList) := by
    rw [pad_eq, hz]; simp [hp]
  have hlen : (m ++ [0x80] ++ List.replicate (55 - m.length) 0 ++
      (bytesBE64 (BitVec.ofNat 64 (8 * (64 + m.length)))).toList).length = 64 := by
    simp; omega
  rw [sha1, sha1Hash, hpad]
  generalize (m ++ [0x80] ++ List.replicate (55 - m.length) 0 ++
      (bytesBE64 (BitVec.ofNat 64 (8 * (64 + m.length)))).toList) = q at *
  have : (p ++ q).length / Config.blockBytes = 2 := by simp [hp, hlen, Config.blockBytes]
  rw [this]
  simp [blocks, Config.blockBytes, hp, hlen, List.take_of_length_le]

/-- A byte of a digest, read from its list. -/
theorem toList_getD (d : Digest) (i : Nat) (h : i < 20) : d.toList.getD i 0 = d[i] := by
  simp [List.getD_eq_getElem?_getD, h]

end Sys2Proof.Laws
end

