-- ==== Sys2Proof/Tests/Slice0.lean ====
section
/-! SUPPORT. The smoke test of the well-formedness checks, decode tests from words written out, single-step and stage
tests whose expected values stand in `spec/`, and one witness per statement that has hypotheses. -/

namespace Sys2Proof.Tests

open Sys2Proof.Machine

/-! ## Helpers -/

/-- The state an outcome answers, if it answers one. -/
def after : Host.Outcome State Fault Refusal → Option State
  | .next t => some t
  | .fault _ => none
  | .refused _ => none

/-- The reset machine with another engine. -/
def withEngine (e : Engine) : State := { State.reset with engine := e }

/-- An engine in IDLE with a key length and a time. -/
def idleWith (n : BitVec 8) (t : BitVec 64) : Engine := { Engine.reset with keyLen := n, time := t }

/-- An engine in RUN with a key length and a time. -/
def runWith (n : BitVec 8) (t : BitVec 64) : Engine := { Engine.reset with phase := .run, keyLen := n, time := t }

/-- The twenty bytes of the test key K20 of `95_test_vectors.md`. -/
def k20Bytes : List Byte :=
  [0x31, 0x32, 0x33, 0x34, 0x35, 0x36, 0x37, 0x38, 0x39, 0x30, 0x31, 0x32, 0x33, 0x34, 0x35, 0x36, 0x37, 0x38, 0x39, 0x30]

/-- The engine with K20 loaded word by word (`20_memory.md` R62) and a time. -/
def k20Engine (t : BitVec 64) : Engine :=
  { (((((Engine.reset.writeKeyWord 0 0x31323334).writeKeyWord 1 0x35363738).writeKeyWord 2 0x39303132).writeKeyWord 3
      0x33343536).writeKeyWord 4 0x37383930) with keyLen := 20, time := t }

/-- After a success with a code, interrupt enabled. -/
def doneEngine : Engine :=
  { k20Engine 59 with done := true, codeValid := true, codeD := ⟨#[2, 8, 7, 0, 8, 2], rfl⟩, ieDone := true }

/-- After a failed GENERATE on a time before the epoch. -/
def failedEngine : Engine := { k20Engine 59 with err := true, errCode := 2, ieErr := true }

/-- A read of `STATUS` and a write of it, as events. -/
def readStatus : Event := .access ⟨false, 0x01, 0⟩

/-! ## WellFormed: each check refuses an ill-formed term -/

/-- R65: misaligned offsets and offsets past the window are refused, the first and last word are admitted. -/
theorem test_wf_offset : admittedOffset 0x02 = false ∧ admittedOffset 0xFD = false ∧ admittedOffset 0x100 = false ∧
    admittedOffset 0x00 = true ∧ admittedOffset 0xFC = true := by decide

/-- R100: a key of 65 bytes cannot be loaded, one of 64 bytes and the empty one can. -/
theorem test_wf_key : loadableKey (List.replicate 65 1) = false ∧ loadableKey (List.replicate 64 1) = true ∧
    loadableKey [] = true := by decide

/-- R92: no command has an operand, so every command is well formed. -/
theorem test_wf_commands : [Instr.nop, .generate, .zeroize].all Instr.wellFormed = true := by decide

/-! ## Decoding, from words written out bit by bit (`30_encoding.md` R92, R94, R96) -/

theorem test_decode_nop : decode 0b00000000000000000000000000000000#32 = .ok .nop := by decide

theorem test_decode_generate : decode 0b00000000000000000000000000000001#32 = .ok .generate := by decide

theorem test_decode_zeroize : decode 0b00000000000000000000000000000010#32 = .ok .zeroize := by decide

/-- R96: the words 3, 0x101 and all ones are reserved. -/
theorem test_decode_reserved : decode 0x00000003#32 = .error (.reservedCommand 0x00000003#32) ∧
    decode 0x00000101#32 = .error (.reservedCommand 0x00000101#32) ∧
    decode 0xFFFFFFFF#32 = .error (.reservedCommand 0xFFFFFFFF#32) := by decide

/-- The words of `opcode_table.json` in its bit numbering. -/
theorem test_decode_table : decodeTableWord 32 0 = some .nop ∧ decodeTableWord 32 1 = some .generate ∧
    decodeTableWord 32 2 = some .zeroize ∧ decodeTableWord 32 3 = none := by decide

/-- A placed word is what the next step runs, from reset: GENERATE fails with InvalidKey (R46), STATUS 0x104 (V30). -/
theorem test_place_generate :
    (after (step (State.reset.withFetchWord 32 1))).map (fun t => t.engine.readReg .status) = some 0x00000104 := by
  decide

/-! ## The commands (V30) -/

/-- V30 row 17: NOP keeps `DONE` and the code. -/
theorem test_nop_keeps : after (exec .nop (withEngine doneEngine)) = some (withEngine doneEngine) := by decide

/-- V30 row 11: NOP in RUN is dropped with `LOCKERR`. -/
theorem test_nop_run :
    (after (exec .nop (withEngine (runWith 20 59)))).map (fun t => t.engine.readReg .status) = some 0x00000009 := by decide

/-- V30 row 5: a key too long and a time before the epoch give InvalidTimestamp. -/
theorem test_generate_priority :
    (after (exec .generate (withEngine (idleWith 65 0x8000000000000000)))).map (fun t => t.engine.readReg .status) =
      some 0x00000204 := by decide

/-- V30 row 8: GENERATE after a success clears the code and starts. -/
theorem test_generate_restarts :
    (after (exec .generate (withEngine doneEngine))).map
      (fun t => (t.engine.readReg .status, t.engine.readReg .codeBcd)) = some (0x00000001, 0x00000000) := by decide

/-- V30 row 18: ZEROIZE after a success leaves the reset state with the enable kept. -/
theorem test_zeroize_erases :
    (after (exec .zeroize (withEngine doneEngine))).map State.engine = some { Engine.reset with ieDone := true } := by
  decide

/-- V30 row 11: ZEROIZE in RUN is dropped and the key stays. -/
theorem test_zeroize_run :
    (after (exec .zeroize (withEngine { k20Engine 59 with phase := .run }))).map
      (fun t => (t.engine.lockErr, t.engine.key.read 0, t.engine.keyLen)) = some (true, 0x31, 20) := by decide

/-- V30 rows 15, 16: reserved words set `ILLCMD` only. -/
theorem test_reserved_word :
    (after (hostWrite 0x00 0x00000101 (withEngine doneEngine))).map State.engine =
      some { doneEngine with illCmd := true } := by decide

/-- V30 row 10 and V2: completion on K20 at time 59 publishes 287082. -/
theorem test_completion_k20 :
    (after (completion (withEngine { k20Engine 59 with phase := .run }))).map (fun t =>
      [t.engine.readReg .status, t.engine.readReg .codeBcd, t.engine.readReg .codeAscii0, t.engine.readReg .codeAscii1]) =
      some [0x00000002, 0x80287082, 0x32383730, 0x38320000] := by decide +kernel

/-! ## Registers (V30) -/

/-- V30 row 19: a STATUS write of bit 2 clears `ERR` and `ERRCODE` together and nothing else. -/
theorem test_status_clears :
    ({ Engine.reset with done := true, err := true, errCode := 2, lockErr := true, illCmd := true } : Engine).readReg
      .status = 0x0000021E ∧
    (({ Engine.reset with done := true, err := true, errCode := 2, lockErr := true, illCmd := true } : Engine).writeReg
      .status 0x00000004).readReg .status = 0x0000001A := by decide

/-- V30 rows 26, 27: unused bits of `IRQ_EN` and `KEYLEN` are not stored. -/
theorem test_enable_and_length :
    (Engine.reset.writeReg .irqEn 0xFFFFFFFF).readReg .irqEn = 0x00000003 ∧
    (Engine.reset.writeReg .keyLen 0x000001FF).readReg .keyLen = 0x000000FF := by decide

/-- V30 row 12: a key word written in RUN is lost. -/
theorem test_key_locked :
    (after (hostWrite 0x1F 0x00000001 (withEngine (runWith 20 59)))).map State.engine =
      some { runWith 20 59 with lockErr := true } := by decide

/-- V30 rows 23, 25: `irq` is a level. -/
theorem test_irq_level :
    ({ doneEngine with ieDone := false } : Engine).irq = false ∧
    (({ doneEngine with ieDone := false } : Engine).writeReg .irqEn 0x00000001).irq = true ∧
    failedEngine.irq = true ∧ (failedEngine.writeReg .status 0x00000004).irq = false := by decide

/-- V31: `STEP` and `CAPS`. -/
theorem test_constants : Engine.reset.readReg .step = 0x0000001E ∧ Engine.reset.readReg .caps = 0x00004006 := by decide

/-- R99: the encodings of the script lines `wr CMD`, `rd STATUS` and `wr KEYW4`. -/
theorem test_script_lines : wr .cmd 0x00000001 = .access ⟨true, 0x00, 0x00000001⟩ ∧
    rd .status = .access ⟨false, 0x01, 0⟩ ∧ wr (.keyW 4) 0x37383930 = .access ⟨true, 0x14, 0x37383930⟩ := by decide

/-- R62, R100: `loadkey` of K20 is the five words of the spec and the length. -/
theorem test_loadkey_k20 : scriptLoadKey k20Bytes =
    some [wr (.keyW 0) 0x31323334, wr (.keyW 1) 0x35363738, wr (.keyW 2) 0x39303132, wr (.keyW 3) 0x33343536,
      wr (.keyW 4) 0x37383930, wr .keyLen 0x00000014] := by decide

/-- R100: `poll` in RUN reads `BUSY = 1` and waits on, for completion when the latency is over. -/
theorem test_poll_busy :
    (after (step { withEngine (runWith 20 59) with script := scriptPoll 0 })).map (fun t => (t.script, t.reads)) =
      some ([.run, .poll 0], [0x00000001]) ∧
    (after (step { withEngine (runWith 20 59) with script := scriptPoll 1 })).map (fun t => (t.script, t.reads)) =
      some ([.poll 0], [0x00000001]) := by decide

/-- R100, V30 row 10: after a success `poll` is a single read of `STATUS`, whatever its argument. -/
theorem test_poll_idle :
    (after (step { withEngine doneEngine with script := scriptPoll 7 })).map (fun t => (t.script, t.reads)) =
      some ([], [0x00000002]) := by decide

/-- R79: a STATUS write that clears `DONE` in the cycle of completion leaves `DONE = 1`. -/
theorem test_pins_collision :
    (after (clockCycle ⟨false, true, true, 0x01, 0x00000002⟩ true (withEngine (runWith 20 59)))).map
      (fun t => t.engine.done) = some true := by decide

/-! ## The stages -/

/-- R118, V20: the counter at the window boundary, at 2^32 + 29 and at the greatest time. -/
theorem test_counter : counter 29 = 0 ∧ counter 30 = 1 ∧ counter 0x000000010000001D = 143165577 ∧
    counter 0x7FFFFFFFFFFFFFFF = 0x0444444444444444 := by decide

/-- R118: the bytes of counter 37037036. -/
theorem test_counter_bytes : (counterBytes 37037036).toList = [0, 0, 0, 0, 0x02, 0x35, 0x23, 0xEC] := by decide

/-- V10: the schedule of the block of "abc", words 16, 19 and 79. -/
theorem test_schedule :
    [16, 19, 79].map ((schedule (pad [0x61, 0x62, 0x63])).getD · 0) = [0xC2C4C700, 0x85898E01, 0x822E0879] := by
  decide +kernel

/-- V10: the working words after round 20. -/
theorem test_rounds :
    sha1Rounds 0 ((schedule (pad [0x61, 0x62, 0x63])).take 21) Hash.initial =
      ⟨0x1A37B0CA, 0xFD9E1D7D, 0x77192407, 0x20AA99CA, 0xD3A49608⟩ := by decide +kernel

/-- R127: `sha1("")`. -/
theorem test_sha1_empty : sha1Hash [] = ⟨0xDA39A3EE, 0x5E6B4B0D, 0x3255BFEF, 0x95601890, 0xAFD80709⟩ := by
  decide +kernel

/-- V11: `sha1` of 56 times "a", the smallest two-block message. -/
theorem test_sha1_two_blocks :
    sha1Hash (List.replicate 56 0x61) = ⟨0xC2DB330F, 0x6083854C, 0x99D4B5BF, 0xB6E8F29F, 0x201BE699⟩ := by
  decide +kernel

/-- R127: the bytes of `sha1("abc")`. -/
theorem test_sha1_abc : (sha1 [0x61, 0x62, 0x63]).toList =
    [0xA9, 0x99, 0x3E, 0x36, 0x47, 0x06, 0x81, 0x6A, 0xBA, 0x3E, 0x25, 0x71, 0x78, 0x50, 0xC2, 0x6C, 0x9C, 0xD0, 0xD8,
      0x9D] := by decide +kernel

/-- V12 case 3: a key of 20 bytes aa, a message of 50 bytes dd. -/
theorem test_hmac_short_key : (hmacSha1 (List.replicate 20 0xAA) (List.replicate 50 0xDD)).toList =
    [0x12, 0x5D, 0x73, 0x42, 0xB9, 0xAC, 0x11, 0xCD, 0x91, 0xA3, 0x9A, 0xF4, 0x8A, 0xA1, 0x7B, 0x4F, 0x63, 0xF1, 0x75,
      0xD3] := by decide +kernel

/-- V12 cases 6, 7: the hash of the 80-byte key, the branch of R131 this hardware never takes. -/
theorem test_hmac_long_key : (prepareKey (List.replicate 80 0xAA)).take 20 =
    [0x4C, 0xA0, 0xEF, 0x38, 0xF1, 0x79, 0x4B, 0x28, 0xA8, 0xF8, 0xEE, 0x11, 0x0E, 0xE7, 0x9D, 0x48, 0xCE, 0x13, 0xBE,
      0x25] := by decide +kernel

/-- V14: 64 zero bytes and one zero byte give the same code, 812658, at time 59. -/
theorem test_code_zero_keys : generateCode [0x00] 59 = ⟨#[8, 1, 2, 6, 5, 8], rfl⟩ ∧
    generateCode (List.replicate 64 0x00) 59 = ⟨#[8, 1, 2, 6, 5, 8], rfl⟩ := by decide +kernel

/-- V22: K20 at the greatest time. -/
theorem test_code_last_time : generateCode k20Bytes 0x7FFFFFFFFFFFFFFF = ⟨#[4, 5, 1, 9, 3, 4], rfl⟩ := by
  decide +kernel

/-- R157: offset 15 reads bytes 15 to 18. -/
theorem test_truncate_last : reduced
    ⟨#[0, 0, 0, 0, 0, 0, 0, 0, 0, 0, 0, 0, 0, 0, 0, 0xDE, 0xAD, 0xBE, 0xEF, 0x1F], rfl⟩ = 444911 := by decide

/-- R157: the high nibble of byte 19 is ignored; the top bit is masked and the modulus subtracted. -/
theorem test_truncate_mask : reduced
    ⟨#[0x80, 0x0F, 0x42, 0x41, 0, 0, 0, 0, 0, 0, 0, 0, 0, 0, 0, 0, 0, 0, 0, 0xF0], rfl⟩ = 1 := by decide

/-- R164, V24: leading zeros are kept; a value not reduced is reduced first. -/
theorem test_format : formatCode 5924 = ⟨#[0, 0, 5, 9, 2, 4], rfl⟩ ∧ formatCode 0xFFFFFFFF = ⟨#[9, 6, 7, 2, 9, 5], rfl⟩ := by
  decide

/-! ## Witnesses: each statement's hypotheses can be met, clause by clause at the boundaries -/

theorem witness_DecodeAgreesWithEncodeAndTable :
    Instr.generate.wellFormed = true ∧ decode 0x00000002 = .ok .zeroize ∧
    ((0x00000003 : Word) ≠ 0x00000000 ∧ (0x00000003 : Word) ≠ 0x00000001 ∧ (0x00000003 : Word) ≠ 0x00000002) ∧
    ((0xFFFFFFFF : Word) ≠ 0x00000000 ∧ (0xFFFFFFFF : Word) ≠ 0x00000001 ∧ (0xFFFFFFFF : Word) ≠ 0x00000002) := by decide

theorem witness_WindowMapHasNoAlias :
    Reg.ofAddr 0x1F = Reg.ofAddr 0x1F ∧
    [0x0B, 0x0F, 0x20, 0x3F].all (fun a : WordAddr => decide ((0x0B ≤ a.toNat ∧ a.toNat < 0x10) ∨ 0x20 ≤ a.toNat)) = true :=
  by decide

theorem witness_OnlyAlignedOffsetsAreAdmitted :
    (0x00 % 4 = 0 ∧ 0x00 ≤ 0xFC) ∧ (0xFC % 4 = 0 ∧ 0xFC ≤ 0xFC) ∧ (0x02 % 4 ≠ 0 ∨ 0xFC < 0x02) ∧
    (0x100 % 4 ≠ 0 ∨ 0xFC < 0x100) := by decide

theorem witness_ResetStepFromAnyState :
    ({ withEngine (runWith 20 59) with script := [.reset, .run] } : State).script = .reset :: [.run] := by decide

theorem witness_StepKeepsTheInvariant :
    (withEngine (runWith 20 59)).Inv ∧ ∃ t, step (withEngine (runWith 20 59)) = .next t := ⟨by decide, _, rfl⟩

theorem witness_ReachableStatesMeetTheInvariant :
    ∃ t, core.run 6 { State.reset with script := [wr .keyLen 20, wr .cmd 1, .poll 1] } = .next t := ⟨_, rfl⟩

theorem witness_StepStopsOnlyOnRunWhileIdle :
    ({ State.reset with script := [.run] } : State).Inv ∧ (withEngine (runWith 64 0x7FFFFFFFFFFFFFFF)).Inv :=
  ⟨by decide, by decide⟩

theorem witness_StepRunsTheDecodedCommand :
    ({ State.reset with script := [.access ⟨true, 0x00, 0x00000001⟩] } : State).script =
      .access ⟨true, 0x00, 0x00000001⟩ :: [] ∧ decode 0x00000001 = .ok .generate := by decide

theorem witness_StepTakesTheOldestEvent :
    ({ State.reset with script := [readStatus] } : State).script = readStatus :: [] ∧
    ({ withEngine (runWith 20 59) with script := [.run] } : State).script = .run :: [] ∧
    ({ withEngine (runWith 20 59) with script := [.poll 0, .reset] } : State).script = .poll 0 :: [.reset] ∧
    ({ State.reset with script := [.poll 1] } : State).script = .poll 1 :: [] ∧
    ((withEngine (runWith 20 59)).script = [] ∧ (withEngine (runWith 20 59)).engine.phase = .run) ∧
    (State.reset.script = [] ∧ State.reset.engine.phase = .idle) := by decide

/-- For the statements with one clause in IDLE and one in RUN: NopChangesNothing, ZeroizeErasesInputsAndResult,
CompletionPublishesTheCode (its clause in IDLE). -/
theorem witness_both_phases :
    (withEngine doneEngine).engine.phase = .idle ∧ (withEngine (runWith 20 59)).engine.phase = .run := by decide

theorem witness_GenerateStartsOnValidInputs :
    [idleWith 1 0, idleWith 64 0x7FFFFFFFFFFFFFFF].all (fun e => decide (e.phase = .idle ∧ 1 ≤ e.keyLen.toNat ∧
      e.keyLen.toNat ≤ 64 ∧ e.time.toNat < 2 ^ 63)) = true := by decide

/-- One witness per error, at the boundary values, the first two with two causes at once. -/
theorem witness_GenerateReportsTheFirstError :
    [(idleWith 0 0x8000000000000000, (1 : BitVec 3)), (idleWith 65 0x8000000000000000, 2), (idleWith 1 0xFFFFFFFFFFFFFFFF, 2),
      (idleWith 65 0x7FFFFFFFFFFFFFFF, 4), (idleWith 255 0, 4)].all (fun p => decide (p.1.phase = .idle ∧
      (if p.1.keyLen.toNat = 0 then p.2 = 1 else if 2 ^ 63 ≤ p.1.time.toNat then p.2 = 2
       else 65 ≤ p.1.keyLen.toNat ∧ p.2 = 4))) = true := by decide

theorem witness_BusyEngineDropsEveryCommand : (withEngine (runWith 64 0)).engine.phase = .run := by decide

theorem witness_ReservedWordOnlySetsIllcmd :
    ((0x00000003 : Word) ≠ 0x00000000 ∧ (0x00000003 : Word) ≠ 0x00000001 ∧ (0x00000003 : Word) ≠ 0x00000002) ∧
    (withEngine failedEngine).engine.phase = .idle ∧ (withEngine (runWith 1 0)).engine.phase = .run := by decide

theorem witness_CommandsKeepEverythingElse :
    (∃ t, exec .generate (withEngine doneEngine) = .next t ∧ (withEngine doneEngine).engine.phase = .idle) ∧
    ∃ t, exec .zeroize (withEngine (runWith 20 59)) = .next t := ⟨⟨_, rfl, by decide⟩, _, rfl⟩

theorem witness_RepeatedGenerateYieldsTheSameError :
    (withEngine (idleWith 65 0)).engine.phase = .idle ∧
    ∃ t, exec .generate (withEngine (idleWith 65 0)) = .next t ∧ t.engine.err = true := ⟨by decide, _, rfl, by decide⟩

/-- For KeyLenKeepsEightBits and TimeIsWrittenInHalves. -/
theorem witness_idle : (withEngine failedEngine).engine.phase = .idle := by decide

theorem witness_KeyWordWriteStoresFourBytes :
    (withEngine (k20Engine 59)).engine.phase = .idle ∧ (withEngine (k20Engine 59)).engine.key.wf = true := by decide

/-- The locked addresses and their unlocked neighbours. -/
theorem witness_LockedRegistersDropWritesInRun :
    (withEngine (runWith 20 59)).engine.phase = .run ∧
    [0x00, 0x03, 0x04, 0x05, 0x10, 0x1F].all (fun a : WordAddr => decide (a = 0x00 ∨ a = 0x03 ∨ a = 0x04 ∨ a = 0x05 ∨
      (0x10 ≤ a.toNat ∧ a.toNat < 0x20))) = true ∧
    [0x01, 0x02, 0x06, 0x0F, 0x20, 0x3F].all (fun a : WordAddr => decide (a ≠ 0x00 ∧ a ≠ 0x03 ∧ a ≠ 0x04 ∧ a ≠ 0x05 ∧
      ¬(0x10 ≤ a.toNat ∧ a.toNat < 0x20))) = true := by decide

theorem witness_ReservedAndReadOnlyWordsIgnoreWrites :
    [0x06, 0x0F, 0x20, 0x3F].all (fun a : WordAddr => decide ((0x06 ≤ a.toNat ∧ a.toNat < 0x10) ∨ 0x20 ≤ a.toNat)) = true ∧
    [0x00, 0x0B, 0x1F, 0x3F].all (fun a : WordAddr => decide (a = 0x00 ∨ 0x0B ≤ a.toNat)) = true := by decide

/-- A read in RUN and one in IDLE. -/
theorem witness_ReadsHaveNoSideEffect :
    (({ withEngine (runWith 20 59) with script := [readStatus, readStatus, .run] } : State).script =
      .access ⟨false, 0x01, 0⟩ :: .access ⟨false, 0x01, 0⟩ :: [.run] ∧
      0x00000001 = (withEngine (runWith 20 59)).engine.readReg (Reg.ofAddr 0x01)) ∧
    (({ withEngine doneEngine with script := [.access ⟨false, 0x06, 0⟩, .access ⟨false, 0x06, 1⟩] } : State).script =
      .access ⟨false, 0x06, 0⟩ :: .access ⟨false, 0x06, 1⟩ :: [] ∧
      0x80287082 = (withEngine doneEngine).engine.readReg (Reg.ofAddr 0x06)) := by decide

theorem witness_CodeRegistersAreViewsOfTheDigits :
    (doneEngine.Inv ∧ doneEngine.codeValid = true) ∧ (failedEngine.Inv ∧ failedEngine.codeValid = false) :=
  ⟨⟨by decide, by decide⟩, by decide, by decide⟩

theorem witness_ErrorEndsOnAcknowledgeOrCommand :
    (withEngine failedEngine).engine.phase = .idle ∧ (withEngine failedEngine).engine.err = true ∧
    (0x00000006 : Word).getLsbD 2 = true ∧ 1 ≤ (withEngine failedEngine).engine.keyLen.toNat ∧
    (withEngine failedEngine).engine.keyLen.toNat ≤ 64 ∧ (withEngine failedEngine).engine.time.toNat < 2 ^ 63 := by decide

theorem witness_IrqFollowsDoneAndErr :
    ((withEngine (runWith 20 59)).Inv ∧ ∃ t, completion (withEngine (runWith 20 59)) = .next t) ∧
    ((withEngine doneEngine).engine.phase = .idle ∧ ∃ t, exec .generate (withEngine doneEngine) = .next t) ∧
    ((withEngine doneEngine).engine.phase = .idle ∧ ∃ t, exec .zeroize (withEngine doneEngine) = .next t) ∧
    (∃ t, hostWrite 0x01 0x00000006 (withEngine doneEngine) = .next t) ∧
    (∃ t, hostWrite 0x02 0x00000001 (withEngine doneEngine) = .next t) :=
  ⟨⟨by decide, _, rfl⟩, ⟨by decide, _, rfl⟩, ⟨by decide, _, rfl⟩, ⟨_, rfl⟩, _, rfl⟩

/-- For CompletionPublishesTheCode, HostCannotDisturbARunningOperation and SameCycleWriteComesBeforeCompletion, the
last with a locked address. -/
theorem witness_completion :
    [runWith 1 0, runWith 64 0x7FFFFFFFFFFFFFFF].all (fun e => decide (e.phase = .run ∧ 1 ≤ e.keyLen.toNat ∧
      e.keyLen.toNat ≤ 64 ∧ e.time.toNat < 2 ^ 63)) = true ∧ (Reg.ofAddr 0x1F).locked = true := by decide

theorem witness_CompletionOutsideItsDomainFaults :
    [runWith 0 0, runWith 65 0, runWith 1 0x8000000000000000].all (fun e => decide (e.phase = .run ∧
      (e.keyLen.toNat = 0 ∨ 65 ≤ e.keyLen.toNat ∨ 2 ^ 63 ≤ e.time.toNat))) = true := by decide

/-- Two states that differ in a key byte at index 20, in flags and enables. -/
theorem witness_ResultDependsOnlyOnKeyAndTime :
    ∃ s1 s2 t1 t2 : State, s1 ≠ s2 ∧ s1.engine.keyLen = s2.engine.keyLen ∧ s1.engine.time = s2.engine.time ∧
      (∀ i : Nat, i < s1.engine.keyLen.toNat → s1.engine.key.read i = s2.engine.key.read i) ∧
      completion s1 = .next t1 ∧ completion s2 = .next t2 :=
  ⟨withEngine { k20Engine 59 with phase := .run },
    withEngine { (k20Engine 59).writeKeyWord 5 0xFF000000 with phase := .run, lockErr := true, ieDone := true, keyLen := 20 },
    _, _, by decide, by decide, by decide, by decide, rfl, rfl⟩

theorem witness_RunEndsAfterFinitelyManySteps :
    ({ withEngine (runWith 20 59) with script := [readStatus, .access ⟨true, 0x03, 5⟩, .poll 2] } : State).Inv ∧
    (withEngine (runWith 20 59)).engine.phase = .run ∧
    ({ withEngine (runWith 20 59) with script := [.poll 0] } : State).script = .poll 0 :: [] ∧
    (({ State.reset with script := [.poll 0] } : State).script = .poll 0 :: [] ∧ State.reset.engine.phase = .idle) := by
  decide

/-- A key of one byte and one of 64 bytes. -/
theorem witness_LoadedKeyAndTimeGiveTheirCode :
    (withEngine doneEngine).Inv ∧ (withEngine doneEngine).engine.phase = .idle ∧
    [List.replicate 1 (0x31 : Byte), List.replicate 64 0x31].all (fun key => decide (1 ≤ key.length ∧ key.length ≤ 64) &&
      (scriptLoadKey key).isSome) = true ∧ (0x7FFFFFFFFFFFFFFF : BitVec 64).toNat < 2 ^ 63 := by decide

theorem witness_LoadKeyStoresTheKey :
    (withEngine failedEngine).Inv ∧ (withEngine failedEngine).engine.phase = .idle ∧
    scriptLoadKey [0x31, 0x32, 0x33, 0x34, 0x35] =
      some [wr (.keyW 0) 0x31323334, wr (.keyW 1) 0x35000000, wr .keyLen 5] ∧
    ([0x31, 0x32, 0x33, 0x34, 0x35] : List Byte).length = 5 ∧
    (5 ≤ 5 ∧ 5 < (5 + 3) / 4 * 4) ∧ (5 ≤ 7 ∧ 7 < (5 + 3) / 4 * 4) ∧ (5 + 3) / 4 * 4 ≤ 8 := by decide

theorem witness_RepeatedGenerateYieldsTheSameCode :
    ∃ t, completion (withEngine (runWith 20 59)) = .next t := ⟨_, rfl⟩

theorem witness_CounterIsFloorOfTimeByThirty : (0x7FFFFFFFFFFFFFFF : BitVec 64).toNat < 2 ^ 63 := by decide

theorem witness_TimeWindowsShareACode :
    ((30 : BitVec 64).toNat < 2 ^ 63 ∧ (59 : BitVec 64).toNat < 2 ^ 63 ∧
      (30 : BitVec 64).toNat / 30 = (59 : BitVec 64).toNat / 30 ∧ (30 : BitVec 64).toNat ≤ (59 : BitVec 64).toNat) ∧
    (0x7FFFFFFFFFFFFFE1 : BitVec 64).toNat + 30 < 2 ^ 63 := by decide

/-- For PaddingFillsWholeBlocks and HashFoldsOverTheBlocks: 55 bytes, the largest one-block message. -/
theorem witness_message : (List.replicate 55 (0x61 : Byte)).length < 2 ^ 61 ∧ ([] : List Byte).length < 2 ^ 61 := by
  decide

/-- For ScheduleFollowsItsRecurrence and CompressionIsEightyRounds: a block, and the first and last round. -/
theorem witness_block :
    (List.replicate 64 (0x61 : Byte)).length = 64 ∧ 0 < 16 ∧ 15 < 16 ∧ (16 ≤ 16 ∧ 16 < 80) ∧ (16 ≤ 79 ∧ 79 < 80) := by decide

theorem witness_LongKeysAreHashedFirst :
    64 < (List.replicate 65 (0x61 : Byte)).length ∧ (List.replicate 64 (0x61 : Byte)).length ≤ 64 := by decide

/-- Keys of one byte and of 64 bytes, with the block and the inner digest they determine. -/
theorem witness_HmacIsFourCompressions :
    (1 ≤ ([0x31] : List Byte).length ∧ ([0x31] : List Byte).length ≤ 64) ∧
    (1 ≤ (List.replicate 64 (0x31 : Byte)).length ∧ (List.replicate 64 (0x31 : Byte)).length ≤ 64) ∧
    (∃ k0 : List Byte, k0 = [0x31] ++ List.replicate (64 - ([0x31] : List Byte).length) 0) ∧
    ∃ inner : Digest, inner = (compress (compress ⟨0x67452301, 0xEFCDAB89, 0x98BADCFE, 0x10325476, 0xC3D2E1F0⟩
      (([0x31] ++ List.replicate (64 - ([0x31] : List Byte).length) 0).map (· ^^^ 0x36)))
      ((counterBytes 1).toList ++ [0x80] ++ List.replicate 47 0 ++ [0, 0, 0, 0, 0, 0, 0x02, 0x40])).digest :=
  ⟨by decide, by decide, ⟨_, rfl⟩, _, rfl⟩

theorem witness_TrailingZeroKeyBytesDoNotMatter : ([0x00] : List Byte).length + 63 ≤ 64 := by decide

theorem witness_TruncationIsUnsignedArithmetic :
    ∃ (d : Digest) (o : Nat), o = d[19].toNat % 16 ∧ o = 15 := ⟨Vector.replicate 20 0xFF, 15, by decide, rfl⟩

theorem witness_FormatIsTheDecimalExpansion :
    ∀ k : Fin 6, (⟨#[9, 9, 9, 9, 9, 9], rfl⟩ : Digits)[k].toNat ≤ 9 := by decide

theorem witness_GenerateCodeIsTheStatedFunction :
    (1 ≤ k20Bytes.length ∧ k20Bytes.length ≤ 64) ∧ (59 : BitVec 64).toNat < 2 ^ 63 ∧
    1 ≤ (List.replicate 64 (0 : Byte)).length ∧ (List.replicate 64 (0 : Byte)).length ≤ 64 := by decide

/-- IDLE to RUN by GENERATE, RUN to IDLE by completion and by reset. -/
theorem witness_PhaseChangesOnlyAsStated :
    (∃ t, step { withEngine (k20Engine 59) with script := [.access ⟨true, 0x00, 0x00000001⟩] } = .next t ∧
      (k20Engine 59).phase = .idle ∧ t.engine.phase = .run) ∧
    (∃ t, step (withEngine (runWith 20 59)) = .next t ∧ (runWith 20 59).phase = .run ∧ t.engine.phase = .idle) ∧
    (∃ t, step { withEngine (runWith 20 59) with script := [.reset] } = .next t ∧ t.engine.phase = .idle) :=
  ⟨⟨_, rfl, by decide, by decide⟩, ⟨_, rfl, by decide, by decide⟩, _, rfl, by decide⟩

/-- `DONE` set by completion and cleared by a STATUS write, `ERR` set by a failing GENERATE and cleared by ZEROIZE,
`ERRCODE` changed by a GENERATE that starts. -/
theorem witness_ResultFlagsAreSetOnlyAsStated :
    (∃ t, step (withEngine (runWith 20 59)) = .next t ∧ (runWith 20 59).done = false ∧ t.engine.done = true) ∧
    (∃ t, step { State.reset with script := [.access ⟨true, 0x00, 0x00000001⟩] } = .next t ∧
      State.reset.engine.err = false ∧ t.engine.err = true) ∧
    (∃ t, step { withEngine doneEngine with script := [.access ⟨true, 0x01, 0x00000002⟩] } = .next t ∧
      doneEngine.done = true ∧ t.engine.done = false) ∧
    (∃ t, step { withEngine failedEngine with script := [.access ⟨true, 0x00, 0x00000002⟩] } = .next t ∧
      failedEngine.err = true ∧ t.engine.err = false) ∧
    (∃ t, step { withEngine failedEngine with script := [.access ⟨true, 0x00, 0x00000001⟩] } = .next t ∧
      t.engine.errCode ≠ failedEngine.errCode) :=
  ⟨⟨_, rfl, by decide, by decide⟩, ⟨_, rfl, by decide, by decide⟩, ⟨_, rfl, by decide, by decide⟩,
    ⟨_, rfl, by decide, by decide⟩, _, rfl, by decide⟩

/-- `LOCKERR` and `ILLCMD` set and cleared. -/
theorem witness_StickyFlagsChangeOnlyAsStated :
    (∃ t, step { withEngine (runWith 20 59) with script := [.access ⟨true, 0x03, 5⟩] } = .next t ∧
      (runWith 20 59).lockErr = false ∧ t.engine.lockErr = true) ∧
    (∃ t, step { withEngine { Engine.reset with lockErr := true, illCmd := true } with
        script := [.access ⟨true, 0x01, 0x00000018⟩] } = .next t ∧ t.engine.lockErr = false ∧ t.engine.illCmd = false) ∧
    (∃ t, step { State.reset with script := [.access ⟨true, 0x00, 0x00000003⟩] } = .next t ∧
      State.reset.engine.illCmd = false ∧ t.engine.illCmd = true) :=
  ⟨⟨_, rfl, by decide, by decide⟩, ⟨_, rfl, by decide, by decide⟩, _, rfl, by decide, by decide⟩

/-- A key word, `KEYLEN` and `TIME_LO` written in IDLE change their input. -/
theorem witness_InputsChangeOnlyByHostOrReset :
    (∃ t, step { State.reset with script := [.access ⟨true, 0x10, 0x31000000⟩] } = .next t ∧
      t.engine.key ≠ State.reset.engine.key) ∧
    (∃ t, step { State.reset with script := [.access ⟨true, 0x03, 5⟩] } = .next t ∧
      t.engine.keyLen ≠ State.reset.engine.keyLen) ∧
    (∃ t, step { State.reset with script := [.access ⟨true, 0x05, 59⟩] } = .next t ∧
      t.engine.time ≠ State.reset.engine.time) :=
  ⟨⟨_, rfl, by decide⟩, ⟨_, rfl, by decide⟩, _, rfl, by decide⟩

/-- The code appears at completion and disappears at ZEROIZE. -/
theorem witness_CodeChangesOnlyAsStated :
    (∃ t, step (withEngine (runWith 20 59)) = .next t ∧ t.engine.codeValid ≠ (runWith 20 59).codeValid) ∧
    (∃ t, step { withEngine doneEngine with script := [.access ⟨true, 0x00, 0x00000002⟩] } = .next t ∧
      (t.engine.codeValid ≠ doneEngine.codeValid ∨ t.engine.codeD ≠ doneEngine.codeD)) :=
  ⟨⟨_, rfl, by decide⟩, _, rfl, by decide⟩

theorem witness_ResetPinHasPriority :
    (⟨true, true, false, 0x09, 0⟩ : Pins).rst = true ∧ (⟨true, true, false, 0x09, 0⟩ : Pins).sel = true ∧
    (⟨true, true, false, 0x09, 0⟩ : Pins).we = false := by decide

end Sys2Proof.Tests
end

section
/-! PROOFS. Runs of the script lines and pseudo-operations (`30_encoding.md` R99, R100), one by one, and `totp`
built from them. -/

namespace Sys2Proof.Proofs

open Sys2Proof.Machine Sys2Proof.Laws

/-- A run whose first step is known. -/
theorem run_of_step {n : Nat} {s t u : State} (h : step s = .next t) (hr : core.run n t = .next u) :
    core.run (n + 1) s = .next u := (run_succ h n).trans hr

/-- A run made of two runs. -/
theorem run_of_run {m n : Nat} {s t u : State} (h : core.run m s = .next t) (hr : core.run n t = .next u) :
    core.run (m + n) s = .next u := (run_append h n).trans hr

/-- Key memory `m` is canonical and is `m₀` with `bytes` stored from key word `j` on, the last word filled up with
0x00. -/
def HoldsBytes (m₀ m : Memory) (j : Nat) (bytes : List Byte) : Prop :=
  m.wf = true ∧ ∀ a, m.read a =
    if 4 * j ≤ a ∧ a < 4 * j + (bytes.length + 3) / 4 * 4 then bytes.getD (a - 4 * j) 0 else m₀.read a

/-- The key word that `loadkey` makes of the first four bytes of a list, absent bytes being 0x00. -/
def headWord (bytes : List Byte) : Word :=
  be32 (bytes.getD 0 0) (bytes.getD 1 0) (bytes.getD 2 0) (bytes.getD 3 0)

/-- One equation for the four ways a list of bytes can end. -/
theorem keyWordWrites_of_ne_nil {bytes : List Byte} (h : bytes ≠ []) (j : Nat) :
    keyWordWrites j bytes =
      wr (.keyW (BitVec.ofNat 4 j)) (headWord bytes) :: keyWordWrites (j + 1) (bytes.drop 4) := by
  match bytes with
  | [] => exact absurd rfl h
  | [_] => rfl
  | [_, _] => rfl
  | [_, _, _] => rfl
  | _ :: _ :: _ :: _ :: _ => rfl

/-- Storing no byte changes nothing. -/
theorem holdsBytes_nil {m : Memory} (hm : m.wf = true) (j : Nat) : HoldsBytes m m j [] :=
  ⟨hm, fun a => by rw [if_neg (by simp)]⟩

/-- What key memory reads after the first word of a list of bytes is written to key word `j`. -/
theorem read_writeKeyWord_headWord {e : Engine} (he : e.key.wf = true) {j : Nat} (hj : j < 16) (bytes : List Byte)
    (a : Nat) :
    (e.writeKeyWord (BitVec.ofNat 4 j) (headWord bytes)).key.read a =
      if 4 * j ≤ a ∧ a < 4 * j + 4 then bytes.getD (a - 4 * j) 0 else e.key.read a := by
  have hjn : (BitVec.ofNat 4 j).toNat = j := by simp; omega
  rw [read_writeKeyWord he, hjn, headWord, be32_byte0, be32_byte1, be32_byte2, be32_byte3]
  by_cases ha : 4 * j ≤ a ∧ a < 4 * j + 4
  · obtain ⟨k, rfl⟩ := Nat.exists_eq_add_of_le ha.1
    have hk : k < 4 := by omega
    interval_cases k <;> simp
  · rw [if_neg (by omega), if_neg (by omega), if_neg (by omega), if_neg (by omega), if_neg ha]

/-- A list of bytes is stored by storing its first word and then the rest. -/
theorem holdsBytes_of_drop {e : Engine} (he : e.key.wf = true) {j : Nat} (hj : j < 16) {bytes : List Byte}
    (hb : bytes ≠ []) {m : Memory}
    (h : HoldsBytes (e.writeKeyWord (BitVec.ofNat 4 j) (headWord bytes)).key m (j + 1) (bytes.drop 4)) :
    HoldsBytes e.key m j bytes := by
  obtain ⟨hm, hread⟩ := h
  have hpos : 0 < bytes.length := List.length_pos_of_ne_nil hb
  refine ⟨hm, fun a => ?_⟩
  rw [hread, read_writeKeyWord_headWord he hj, List.length_drop]
  by_cases htail : 4 * (j + 1) ≤ a ∧ a < 4 * (j + 1) + (bytes.length - 4 + 3) / 4 * 4
  · have hidx : 4 + (a - 4 * (j + 1)) = a - 4 * j := by omega
    rw [if_pos htail, if_pos (by omega), List.getD_eq_getElem?_getD, List.getElem?_drop, hidx,
      ← List.getD_eq_getElem?_getD]
  · rw [if_neg htail]
    by_cases hhead : 4 * j ≤ a ∧ a < 4 * j + 4
    · rw [if_pos hhead, if_pos (by omega)]
    · rw [if_neg hhead, if_neg (by omega)]

/-- The first `bytes.length` bytes of a memory that holds `bytes` from its start are those bytes. -/
theorem read_range_of_holdsBytes {m₀ m : Memory} {bytes : List Byte} (h : HoldsBytes m₀ m 0 bytes) :
    (List.range bytes.length).map (fun i => m.read i) = bytes := by
  refine List.ext_getElem (by simp) fun i hi hb => ?_
  rw [List.getElem_map, List.getElem_range, h.2, if_pos (by omega), Nat.mul_zero, Nat.sub_zero,
    List.getD_eq_getElem _ _ hb]

/-- The key words of `loadkey` in IDLE store the bytes and change nothing else of the engine. -/
theorem run_keyWordWrites {j : Nat} {bytes : List Byte} {s : State} {rest : List Event} (hk : s.engine.key.wf = true)
    (hp : s.engine.phase = .idle) (hlen : 4 * j + bytes.length ≤ 64)
    (hs : s.script = keyWordWrites j bytes ++ rest) :
    ∃ m, HoldsBytes s.engine.key m j bytes ∧ core.run (keyWordWrites j bytes).length s =
      .next { s with engine := { s.engine with key := m }, script := rest } := by
  induction hn : bytes.length using Nat.strong_induction_on generalizing j bytes s with
  | _ n ih =>
    by_cases hb : bytes = []
    · subst hb
      exact ⟨s.engine.key, holdsBytes_nil hk j, by cases s; cases hs; rfl⟩
    · have hpos : 0 < bytes.length := List.length_pos_of_ne_nil hb
      rw [keyWordWrites_of_ne_nil hb] at hs ⊢
      have hstep := step_wr hs (ofAddr_keyW _) (by simp) hp
      obtain ⟨m, hm, hrun⟩ := ih (bytes.drop 4).length (by rw [List.length_drop]; omega) (j := j + 1)
        (s := ⟨s.engine.writeKeyWord (BitVec.ofNat 4 j) (headWord bytes), keyWordWrites (j + 1) (bytes.drop 4) ++ rest,
          s.reads⟩) (wf_writeKeyWord hk _ _) hp (by rw [List.length_drop]; omega) rfl rfl
      exact ⟨m, holdsBytes_of_drop hk (by omega) hb hm, run_of_step hstep hrun⟩

/-- `loadkey` in IDLE stores the key and its length and changes nothing else of the engine. -/
theorem run_scriptLoadKey {key : List Byte} {s : State} {load rest : List Event} (hk : s.engine.key.wf = true)
    (hp : s.engine.phase = .idle) (hload : scriptLoadKey key = some load) (hs : s.script = load ++ rest) :
    ∃ m, HoldsBytes s.engine.key m 0 key ∧ core.run load.length s =
      .next { s with engine := { s.engine with key := m, keyLen := BitVec.ofNat 8 key.length }, script := rest } := by
  obtain ⟨hl, rfl⟩ : loadableKey key = true ∧
      keyWordWrites 0 key ++ [wr .keyLen (BitVec.ofNat 32 key.length)] = load := by
    simpa [scriptLoadKey] using hload
  rw [List.append_assoc] at hs
  obtain ⟨m, hm, hrun⟩ := run_keyWordWrites hk hp (by have := (loadableKey_iff key).1 hl; omega) hs
  have hbits : (BitVec.ofNat 32 key.length).extractLsb' 0 8 = BitVec.ofNat 8 key.length :=
    BitVec.eq_of_toNat_eq (by simp)
  refine ⟨m, hm, ?_⟩
  rw [List.length_append, ← hbits]
  exact run_of_run hrun (run_of_step (step_wr (r := .keyLen) rfl rfl (by decide) hp) (run_zero _))

/-- `settime` in IDLE sets `TIME` and changes nothing else of the engine. -/
theorem run_scriptSetTime {t : BitVec 64} {s : State} {rest : List Event} (hp : s.engine.phase = .idle)
    (hs : s.script = scriptSetTime t ++ rest) :
    core.run 2 s = .next { s with engine := { s.engine with time := t }, script := rest } := by
  have ht := (writeTime_both s.engine (t.extractLsb' 32 32) (t.extractLsb' 0 32)).trans (halves t)
  have hwrites := run_of_step (step_wr (r := .timeHi) hs rfl (by decide) hp)
    (run_of_step (step_wr (r := .timeLo) (rest := rest) rfl rfl (by decide) hp) (run_zero _))
  rw [← ht]
  exact hwrites

/-- `generate` in IDLE is acceptance (`44_commands.md` R172). -/
theorem step_scriptGenerate {s : State} {rest : List Event} (hp : s.engine.phase = .idle)
    (hs : s.script = scriptGenerate ++ rest) :
    step s = .next { s with engine := s.engine.accept, script := rest } :=
  (step_wr_cmd hs rfl hp).trans (command_idle (s := { s with script := rest }) hp Engine.accept)

/-- A `rd` line returns what the register reads and changes nothing else. -/
theorem step_rd {s : State} {r : Reg} {rest : List Event} (hs : s.script = rd r :: rest) (hr : Reg.ofAddr r.addr = r) :
    step s = .next { s with script := rest, reads := s.engine.readReg r :: s.reads } := by
  rw [step_access hs, hostAccess, if_neg Bool.false_ne_true, hostRead, hr]

/-- On inputs in the domain of `44_commands.md` R174 acceptance (R172) starts the operation. -/
theorem accept_of_inputsValid {e : Engine} (h : e.inputsValid = true) :
    e.accept = { e.clearResult with phase := .run } := by
  obtain ⟨h1, h2, h3⟩ := (inputsValid_iff e).1 h
  refine accept_of_none ?_
  rcases validate_cases e with ⟨hc, _⟩ | ⟨_, hc, _⟩ | ⟨hc, _, _⟩ | ⟨_, _, _, hv⟩
  · omega
  · omega
  · omega
  · exact hv

/-- A `run` line in RUN on valid inputs is completion. -/
theorem step_run_of_inputsValid {s : State} {rest : List Event} (hp : s.engine.phase = .run)
    (hv : s.engine.inputsValid = true) (hs : s.script = .run :: rest) :
    step s = .next { s with engine := s.engine.publish, script := rest } := by
  obtain ⟨h1, h2, h3⟩ := (inputsValid_iff s.engine).1 hv
  exact (step_run hs).trans (completion_run (s := { s with script := rest }) hp h1 h2 h3)

/-- `poll` in RUN reads `STATUS` `more + 1` times before completion and once after it. -/
theorem run_poll {more : Nat} {s : State} {rest : List Event} (hp : s.engine.phase = .run)
    (hv : s.engine.inputsValid = true) (hs : s.script = .poll more :: rest) :
    core.run (more + 3) s = .next
      { engine := s.engine.publish, script := rest,
        reads := s.engine.publish.readReg .status ::
          (List.replicate (more + 1) (s.engine.readReg .status) ++ s.reads) } := by
  induction more generalizing s with
  | zero =>
    have hfirst := step_poll hs
    rw [busy_of_run hp, afterPoll_zero] at hfirst
    exact run_of_step hfirst (run_of_step (step_run_of_inputsValid hp hv rfl)
      (run_of_step (step_poll (more := 0) rfl) (run_zero _)))
  | succ n ih =>
    have hfirst := step_poll hs
    rw [busy_of_run hp, afterPoll_succ] at hfirst
    rw [List.replicate_succ' (n := n + 1), List.append_assoc, List.singleton_append]
    exact run_of_step hfirst (ih hp hv rfl)

/-- The engine `e` with key memory `m`, the length of `key` and the time `t` as its inputs. -/
def loadedEngine (e : Engine) (m : Memory) (key : List Byte) (t : BitVec 64) : Engine :=
  { e with key := m, keyLen := BitVec.ofNat 8 key.length, time := t }

/-- A key length that key memory has room for fits `KEYLEN`. -/
theorem loadedEngine_keyLen {key : List Byte} (h : key.length ≤ 64) (e : Engine) (m : Memory) (t : BitVec 64) :
    (loadedEngine e m key t).keyLen.toNat = key.length :=
  BitVec.toNat_ofNat _ _ ▸ Nat.mod_eq_of_lt (by omega)

/-- A loaded key of 1 to 64 bytes and a time not before the epoch are valid inputs. -/
theorem loadedEngine_inputsValid {key : List Byte} {t : BitVec 64} (h1 : 1 ≤ key.length) (h64 : key.length ≤ 64)
    (ht : t.toNat < 2 ^ 63) (e : Engine) (m : Memory) : (loadedEngine e m key t).inputsValid = true := by
  rw [inputsValid_iff, loadedEngine_keyLen h64]
  exact ⟨h1, h64, ht⟩

/-- The key a loaded engine works on is the key loaded. -/
theorem loadedEngine_keyBytes {m₀ m : Memory} {key : List Byte} (h64 : key.length ≤ 64) (hm : HoldsBytes m₀ m 0 key)
    (e : Engine) (t : BitVec 64) : (loadedEngine e m key t).keyBytes = key := by
  rw [Engine.keyBytes, loadedEngine_keyLen h64]
  exact read_range_of_holdsBytes hm

/-- Loading a key, setting a time and GENERATE, from IDLE: the engine is in RUN with exactly that key and time. -/
theorem run_load_setTime_generate {s : State} {key : List Byte} {t : BitVec 64} {load rest : List Event}
    (hk : s.engine.key.wf = true) (hp : s.engine.phase = .idle) (h1 : 1 ≤ key.length) (h64 : key.length ≤ 64)
    (ht : t.toNat < 2 ^ 63) (hload : scriptLoadKey key = some load)
    (hs : s.script = load ++ (scriptSetTime t ++ (scriptGenerate ++ rest))) :
    ∃ e : Engine, core.run (load.length + 3) s = .next ⟨e, rest, s.reads⟩ ∧ e.phase = .run ∧ e.err = false ∧
      e.inputsValid = true ∧ e.keyBytes = key ∧ e.time = t := by
  obtain ⟨m, hm, hrunLoad⟩ := run_scriptLoadKey hk hp hload hs
  have hv := loadedEngine_inputsValid h1 h64 ht s.engine m
  have haccept := accept_of_inputsValid hv
  have hrunTime := run_scriptSetTime (t := t) (rest := scriptGenerate ++ rest)
    (s := ⟨{ s.engine with key := m, keyLen := BitVec.ofNat 8 key.length },
      scriptSetTime t ++ (scriptGenerate ++ rest), s.reads⟩) hp rfl
  have hstep := step_scriptGenerate (rest := rest)
    (s := ⟨loadedEngine s.engine m key t, scriptGenerate ++ rest, s.reads⟩) hp rfl
  rw [haccept] at hstep
  exact ⟨_, run_of_run hrunLoad (run_of_run (n := 1) hrunTime (run_of_step hstep (run_zero _))), rfl, rfl, hv,
    loadedEngine_keyBytes h64 hm s.engine t, rfl⟩

/-- Settles O38: both runs go through the same accepted GENERATE; then completion, or `poll` and the two reads. -/
theorem loadedKeyAndTimeGiveTheirCode : Obligations.LoadedKeyAndTimeGiveTheirCode := by
  intro s key t load hi hp h1 h64 ht hload
  obtain ⟨_, _, _, _, hk⟩ := hi
  constructor
  · obtain ⟨e, hrun, he, herr, hv, hbytes, htime⟩ := run_load_setTime_generate (rest := [.run])
      (s := { s with script := load ++ scriptSetTime t ++ scriptGenerate ++ [.run] }) hk hp h1 h64 ht hload
      (by simp only [List.append_assoc])
    have hstep := step_run_of_inputsValid (s := ⟨e, [.run], s.reads⟩) he hv rfl
    exact ⟨_, run_of_run (n := 1) hrun (run_of_step hstep (run_zero _)),
      rfl, rfl, rfl, herr, rfl, by rw [publish_codeD, hbytes, htime]⟩
  · intro more
    obtain ⟨e, hrun, he, _, hv, hbytes, htime⟩ := run_load_setTime_generate
      (rest := scriptPoll more ++ [rd .codeAscii0, rd .codeAscii1])
      (s := { s with script := load ++ scriptSetTime t ++ scriptTotp more }) hk hp h1 h64 ht hload
      (by simp only [scriptTotp, List.append_assoc])
    have hpoll := run_poll (s := ⟨e, .poll more :: [rd .codeAscii0, rd .codeAscii1], s.reads⟩) he hv rfl
    have hcount : load.length + more + 8 = load.length + 3 + (more + 3 + 2) := by omega
    rw [hcount]
    exact ⟨_, e.readReg .status, e.publish.readReg .status,
      run_of_run hrun (run_of_run hpoll (run_of_step (step_rd (r := .codeAscii0) rfl rfl)
        (run_of_step (step_rd (r := .codeAscii1) rfl rfl) (run_zero _)))),
      rfl, rfl, rfl, by rw [publish_codeD, hbytes, htime], by rw [statusBit_busy, busy_of_run he],
      by rw [statusBit_busy, busy_of_idle (publish_phase e)], rfl⟩

end Sys2Proof.Proofs
end

section
/-! PROOFS. What one step does to the engine, said once, and the rules over all steps that follow: the invariant of
`10_state.md` R44, and what may change each state element. -/

namespace Sys2Proof.Proofs

open Sys2Proof.Machine Sys2Proof.Laws

/-- The engines that a step from `s` can lead to, each with the pending event and the phase that lead to it. -/
inductive EngineStep (s : State) : Engine → Prop where
  /-- A read, `poll`, NOP, or nothing to do. -/
  | keep : EngineStep s s.engine
  /-- Completion (`44_commands.md` R175). -/
  | complete (hs : s.script = [] ∨ ∃ rest, s.script = .run :: rest) (hp : s.engine.phase = .run) :
      EngineStep s s.engine.publish
  /-- Reset (`70_reset_and_hazards.md` R220). -/
  | reset (hs : ∃ rest, s.script = .reset :: rest) : EngineStep s Engine.reset
  /-- A write to a locked register in RUN (`10_state.md` R45). -/
  | drop {a : WordAddr} {w : Word} (hs : ∃ rest, s.script = .access ⟨true, a, w⟩ :: rest)
      (hp : s.engine.phase = .run) (hl : (Reg.ofAddr a).locked = true) : EngineStep s s.engine.dropWrite
  /-- GENERATE in IDLE (`44_commands.md` R172). -/
  | accept (hs : ∃ rest, s.script = .access ⟨true, 0x00, 0x00000001⟩ :: rest) (hp : s.engine.phase = .idle) :
      EngineStep s s.engine.accept
  /-- ZEROIZE in IDLE (`44_commands.md` R173). -/
  | zeroize (hs : ∃ rest, s.script = .access ⟨true, 0x00, 0x00000002⟩ :: rest) (hp : s.engine.phase = .idle) :
      EngineStep s s.engine.eraseInputs.clearResult
  /-- A reserved command word in IDLE (`30_encoding.md` R96). -/
  | flag {w : Word} (hs : ∃ rest, s.script = .access ⟨true, 0x00, w⟩ :: rest) (hp : s.engine.phase = .idle)
      (hw : 3 ≤ w.toNat) : EngineStep s s.engine.flagReserved
  /-- A write that reaches a register other than `CMD` (`20_memory.md` R68). -/
  | store {a : WordAddr} {w : Word} (hs : ∃ rest, s.script = .access ⟨true, a, w⟩ :: rest)
      (hl : (Reg.ofAddr a).locked = false ∨ s.engine.phase = .idle) :
      EngineStep s (s.engine.writeReg (Reg.ofAddr a) w)

/-- A host write is one of the engine's steps. -/
theorem engineStep_of_hostWrite {s t : State} {a : WordAddr} {w : Word} {rest : List Event}
    (hs : s.script = .access ⟨true, a, w⟩ :: rest) (h : hostWrite a w { s with script := rest } = .next t) :
    EngineStep s t.engine := by
  rcases hostWrite_cases a w { s with script := rest } with ⟨hp, hl, he⟩ | ⟨hp, rfl, rfl, he⟩ | ⟨hp, rfl, rfl, he⟩ |
    ⟨hp, rfl, rfl, he⟩ | ⟨hp, rfl, h0, h1, h2, he⟩ | ⟨hl, _, he⟩ <;> cases he.symm.trans h
  · exact .drop ⟨rest, hs⟩ hp hl
  · exact .keep
  · exact .accept ⟨rest, hs⟩ hp
  · exact .zeroize ⟨rest, hs⟩ hp
  · exact .flag ⟨rest, hs⟩ hp (by bv_omega)
  · exact .store ⟨rest, hs⟩ hl

/-- Every step of the machine is one of the engine's steps. -/
theorem engineStep_of_step {s t : State} (h : step s = .next t) : EngineStep s t.engine := by
  rcases step_cases h with ⟨_, _, rfl⟩ | ⟨rest, hs, hp, _, _, _, rfl⟩ | ⟨rest, hs, rfl⟩ | ⟨_, _, _, _, rfl⟩ |
    ⟨_, _, _, rfl⟩ | ⟨a, w, rest, hs, hw⟩
  · exact .keep
  · exact .complete (hs.imp And.left fun hr => ⟨rest, hr⟩) hp
  · exact .reset ⟨rest, hs⟩
  · exact .keep
  · exact .keep
  · exact engineStep_of_hostWrite hs hw

/-- A write of a register that is not locked changes no input. -/
theorem writeReg_inputs_of_unlocked {e : Engine} {r : Reg} (h : r.locked = false) (w : Word) :
    (e.writeReg r w).key = e.key ∧ (e.writeReg r w).keyLen = e.keyLen ∧ (e.writeReg r w).time = e.time := by
  cases r
  case cmd | keyLen | timeHi | timeLo | keyW => cases h
  all_goals exact ⟨rfl, rfl, rfl⟩

/-! ### The invariant -/

/-- Every step of the engine keeps the invariant of R44. -/
theorem EngineStep.inv {s : State} {e : Engine} (h : EngineStep s e) (hi : s.Inv) : e.Inv := by
  cases h with
  | keep => exact hi
  | complete _ hp => exact inv_publish hi hp
  | reset => exact inv_reset
  | drop => exact hi
  | accept _ hp => exact inv_accept hi hp
  | zeroize _ hp => exact inv_zeroize hi hp
  | flag => exact hi
  | store _ hl => exact inv_writeReg hi _ _ hl

/-- Settles O8, by the engine's steps one by one. -/
theorem stepKeepsTheInvariant : Obligations.StepKeepsTheInvariant :=
  fun _ _ hi h => (engineStep_of_step h).inv hi

/-- Settles O7. -/
theorem resetMeetsTheInvariant : Obligations.ResetMeetsTheInvariant := inv_reset

/-- Settles O9, by induction along the run: reset meets the invariant and every step keeps it. -/
theorem reachableStatesMeetTheInvariant : Obligations.ReachableStatesMeetTheInvariant := by
  intro events n t h
  have hreset : ({ State.reset with script := events } : State).Inv := resetMeetsTheInvariant
  obtain ⟨hrun, herror, hdigits, houtcome, _⟩ := run_induction stepKeepsTheInvariant hreset h
  exact ⟨hrun, herror, hdigits, houtcome⟩

/-! ### What changes which element

Each lemma says of one element that a step keeps it, or names the steps that change it and what they leave in it. -/

/-- The environment resets the engine next. -/
abbrev ResetNext (s : State) : Prop := ∃ rest, s.script = .reset :: rest

/-- The host writes `STATUS` next, with bit `i` set. -/
abbrev StatusClearNext (s : State) (i : Nat) : Prop :=
  ∃ w rest, s.script = .access ⟨true, 0x01, w⟩ :: rest ∧ w.getLsbD i = true

/-- GENERATE or ZEROIZE is executed next. -/
abbrev ResultCommandNext (s : State) : Prop :=
  s.engine.phase = .idle ∧
    ∃ w rest, s.script = .access ⟨true, 0x00, w⟩ :: rest ∧ (w = 0x00000001 ∨ w = 0x00000002)

section

variable {s : State} {e : Engine}

theorem resultCommandNext_of_generate (hs : ∃ rest, s.script = .access ⟨true, 0x00, 0x00000001⟩ :: rest)
    (hp : s.engine.phase = .idle) : ResultCommandNext s :=
  hs.elim fun rest h => ⟨hp, _, rest, h, .inl rfl⟩

theorem resultCommandNext_of_zeroize (hs : ∃ rest, s.script = .access ⟨true, 0x00, 0x00000002⟩ :: rest)
    (hp : s.engine.phase = .idle) : ResultCommandNext s :=
  hs.elim fun rest h => ⟨hp, _, rest, h, .inr rfl⟩

theorem statusClearNext_of_write {w : Word} {i : Nat} (hs : ∃ rest, s.script = .access ⟨true, 0x01, w⟩ :: rest)
    (hw : w.getLsbD i = true) : StatusClearNext s i :=
  hs.elim fun rest h => ⟨w, rest, h, hw⟩

/-- A write of a flag that writing 1 clears keeps it, or clears it with the bit set. -/
theorem clearedBy_cases {x y b : Bool} (h : y = (x && !b)) : y = x ∨ (y = false ∧ b = true) := by
  cases b
  · exact .inl (h.trans (Bool.and_true x))
  · exact .inr ⟨h.trans (Bool.and_false x), rfl⟩

/-- What a step does to `phase` (R21). -/
theorem EngineStep.phase_change (h : EngineStep s e) :
    e.phase = s.engine.phase ∨
    (e.phase = .run ∧ (∃ rest, s.script = .access ⟨true, 0x00, 0x00000001⟩ :: rest) ∧ 1 ≤ s.engine.keyLen.toNat ∧
      s.engine.keyLen.toNat ≤ 64 ∧ s.engine.time.toNat < 2 ^ 63) ∨
    (e.phase = .idle ∧ ((∃ rest, s.script = .reset :: rest ∧ e = Engine.reset) ∨
      ((s.script = [] ∨ ∃ rest, s.script = .run :: rest) ∧ e.done = true ∧ e.codeValid = true))) := by
  cases h with
  | keep => exact .inl rfl
  | complete hs => exact .inr (.inr ⟨rfl, .inr ⟨hs, rfl, rfl⟩⟩)
  | reset hs => exact .inr (.inr ⟨rfl, .inl (hs.imp fun _ h => ⟨h, rfl⟩)⟩)
  | drop => exact .inl rfl
  | accept hs hp =>
    rcases accept_cases s.engine hp with ⟨hidle, _, _⟩ | ⟨h1, h64, ht, hrun, _⟩
    · exact .inl (hidle.trans hp.symm)
    · exact .inr (.inl ⟨hrun, hs, h1, h64, ht⟩)
  | zeroize => exact .inl rfl
  | flag => exact .inl rfl
  | store => exact .inl (writeReg_keeps _ _ _).1

/-- What a step does to `DONE` (R36). -/
theorem EngineStep.done_change (h : EngineStep s e) :
    e.done = s.engine.done ∨
    (e.done = true ∧ s.engine.phase = .run ∧ e.phase = .idle ∧ e.codeValid = true) ∨
    (e.done = false ∧ (ResetNext s ∨ StatusClearNext s 1 ∨ ResultCommandNext s)) := by
  cases h with
  | keep => exact .inl rfl
  | complete _ hp => exact .inr (.inl ⟨rfl, hp, rfl, rfl⟩)
  | reset hs => exact .inr (.inr ⟨rfl, .inl hs⟩)
  | drop => exact .inl rfl
  | accept hs hp =>
    exact .inr (.inr ⟨(accept_result _).1, .inr (.inr (resultCommandNext_of_generate hs hp))⟩)
  | zeroize hs hp => exact .inr (.inr ⟨rfl, .inr (.inr (resultCommandNext_of_zeroize hs hp))⟩)
  | flag => exact .inl rfl
  | @store a w hs hl =>
    obtain ⟨hdone | ⟨rfl, hdone⟩, _⟩ := writeReg_results s.engine a w
    · exact .inl hdone
    · exact (clearedBy_cases hdone).imp_right fun ⟨hclear, hw⟩ =>
        .inr ⟨hclear, .inr (.inl (statusClearNext_of_write hs hw))⟩

/-- What a step does to `ERR` and `ERRCODE` (R37). -/
theorem EngineStep.error_change (h : EngineStep s e) :
    (e.err = s.engine.err ∧ e.errCode = s.engine.errCode) ∨
    (s.engine.phase = .idle ∧ (∃ rest, s.script = .access ⟨true, 0x00, 0x00000001⟩ :: rest) ∧ e.err = true ∧
      e.errCode ≠ 0 ∧ e.codeValid = false) ∨
    (e.err = false ∧ (ResetNext s ∨ StatusClearNext s 2 ∨ ResultCommandNext s)) := by
  cases h with
  | keep => exact .inl ⟨rfl, rfl⟩
  | complete => exact .inl ⟨rfl, rfl⟩
  | reset hs => exact .inr (.inr ⟨rfl, .inl hs⟩)
  | drop => exact .inl ⟨rfl, rfl⟩
  | accept hs hp =>
    obtain ⟨_, hvalid, _⟩ := accept_result s.engine
    rcases accept_cases s.engine hp with ⟨_, herr, hcode⟩ | ⟨_, _, _, _, herr⟩
    · exact .inr (.inl ⟨hp, hs, herr, hcode, hvalid⟩)
    · exact .inr (.inr ⟨herr, .inr (.inr (resultCommandNext_of_generate hs hp))⟩)
  | zeroize hs hp => exact .inr (.inr ⟨rfl, .inr (.inr (resultCommandNext_of_zeroize hs hp))⟩)
  | flag => exact .inl ⟨rfl, rfl⟩
  | @store a w hs hl =>
    obtain ⟨_, hsame | ⟨rfl, herr, hcode⟩⟩ := writeReg_results s.engine a w
    · exact .inl hsame
    · cases hw : w.getLsbD 2 <;> rw [hw] at herr hcode
      · exact .inl ⟨herr.trans (Bool.and_true _), hcode⟩
      · exact .inr (.inr ⟨herr.trans (Bool.and_false _), .inr (.inl (statusClearNext_of_write hs hw))⟩)

/-- What a step does to `LOCKERR` (R38). -/
theorem EngineStep.lockErr_change (h : EngineStep s e) :
    e.lockErr = s.engine.lockErr ∨
    (e.lockErr = true ∧ s.engine.phase = .run ∧
      ∃ a w rest, s.script = .access ⟨true, a, w⟩ :: rest ∧ (Reg.ofAddr a).locked = true) ∨
    (e.lockErr = false ∧ (ResetNext s ∨ StatusClearNext s 3)) := by
  cases h with
  | keep => exact .inl rfl
  | complete => exact .inl rfl
  | reset hs => exact .inr (.inr ⟨rfl, .inl hs⟩)
  | drop hs hp hl => exact .inr (.inl ⟨rfl, hp, hs.elim fun rest h => ⟨_, _, rest, h, hl⟩⟩)
  | accept =>
    obtain ⟨_, _, _, hlock, _⟩ := accept_frame s.engine
    exact .inl hlock
  | zeroize => exact .inl rfl
  | flag => exact .inl rfl
  | @store a w hs hl =>
    obtain ⟨hsame | ⟨rfl, hlock⟩, _⟩ := writeReg_sticky s.engine a w
    · exact .inl hsame
    · exact (clearedBy_cases hlock).imp_right fun ⟨hclear, hw⟩ =>
        .inr ⟨hclear, .inr (statusClearNext_of_write hs hw)⟩

/-- What a step does to `ILLCMD` (R39). -/
theorem EngineStep.illCmd_change (h : EngineStep s e) :
    e.illCmd = s.engine.illCmd ∨
    (e.illCmd = true ∧ s.engine.phase = .idle ∧
      ∃ w rest, s.script = .access ⟨true, 0x00, w⟩ :: rest ∧ 3 ≤ w.toNat) ∨
    (e.illCmd = false ∧ (ResetNext s ∨ StatusClearNext s 4)) := by
  cases h with
  | keep => exact .inl rfl
  | complete => exact .inl rfl
  | reset hs => exact .inr (.inr ⟨rfl, .inl hs⟩)
  | drop => exact .inl rfl
  | accept =>
    obtain ⟨_, _, hill, _⟩ := accept_frame s.engine
    exact .inl hill
  | zeroize => exact .inl rfl
  | flag hs hp hw => exact .inr (.inl ⟨rfl, hp, hs.elim fun rest h => ⟨_, rest, h, hw⟩⟩)
  | @store a w hs hl =>
    obtain ⟨_, hsame | ⟨rfl, hill⟩⟩ := writeReg_sticky s.engine a w
    · exact .inl hsame
    · exact (clearedBy_cases hill).imp_right fun ⟨hclear, hw⟩ =>
        .inr ⟨hclear, .inr (statusClearNext_of_write hs hw)⟩

/-- What a step does to key memory, `KEYLEN` and `TIME` (R26, R27, R28). -/
theorem EngineStep.inputs_change (h : EngineStep s e) :
    (e.key = s.engine.key ∧ e.keyLen = s.engine.keyLen ∧ e.time = s.engine.time) ∨ ResetNext s ∨
    (s.engine.phase = .idle ∧ ∃ a w rest, s.script = .access ⟨true, a, w⟩ :: rest ∧
      ((a = 0x00 ∧ w = 0x00000002) ∨ e = s.engine.writeReg (Reg.ofAddr a) w)) := by
  cases h with
  | keep => exact .inl ⟨rfl, rfl, rfl⟩
  | complete => exact .inl ⟨rfl, rfl, rfl⟩
  | reset hs => exact .inr (.inl hs)
  | drop => exact .inl ⟨rfl, rfl, rfl⟩
  | accept =>
    obtain ⟨_, _, _, _, hlen, htime, hkey⟩ := accept_frame s.engine
    exact .inl ⟨hkey, hlen, htime⟩
  | zeroize hs hp => exact .inr (.inr ⟨hp, hs.elim fun rest h => ⟨_, _, rest, h, .inl ⟨rfl, rfl⟩⟩⟩)
  | flag => exact .inl ⟨rfl, rfl, rfl⟩
  | store hs hl =>
    rcases hl with hl | hp
    · exact .inl (writeReg_inputs_of_unlocked hl _)
    · exact .inr (.inr ⟨hp, hs.elim fun rest h => ⟨_, _, rest, h, .inr rfl⟩⟩)

/-- What a step does to the code (R30). -/
theorem EngineStep.code_change (h : EngineStep s e) :
    (e.codeValid = s.engine.codeValid ∧ e.codeD = s.engine.codeD) ∨ ResetNext s ∨
    (s.engine.phase = .run ∧ e.phase = .idle ∧ e.done = true ∧ e.codeValid = true) ∨
    (e.codeValid = false ∧ ResultCommandNext s) := by
  cases h with
  | keep => exact .inl ⟨rfl, rfl⟩
  | complete _ hp => exact .inr (.inr (.inl ⟨hp, rfl, rfl, rfl⟩))
  | reset hs => exact .inr (.inl hs)
  | drop => exact .inl ⟨rfl, rfl⟩
  | accept hs hp =>
    obtain ⟨_, hvalid, _⟩ := accept_result s.engine
    exact .inr (.inr (.inr ⟨hvalid, resultCommandNext_of_generate hs hp⟩))
  | zeroize hs hp => exact .inr (.inr (.inr ⟨rfl, resultCommandNext_of_zeroize hs hp⟩))
  | flag => exact .inl ⟨rfl, rfl⟩
  | store => exact .inl (writeReg_keeps _ _ _).2

end

/-! ### The rules over all steps -/

/-- A flag that a step keeps, sets under `p` or clears under `q` is set only under `p` and cleared only under `q`. -/
theorem flag_changes {x y : Bool} {p q : Prop} (h : y = x ∨ (y = true ∧ p) ∨ (y = false ∧ q)) :
    (x = false → y = true → p) ∧ (x = true → y = false → q) := by
  rcases h with rfl | ⟨rfl, hp⟩ | ⟨rfl, hq⟩
  · exact ⟨fun h0 h1 => absurd (h0.symm.trans h1) (by decide), fun h1 h0 => absurd (h0.symm.trans h1) (by decide)⟩
  · exact ⟨fun _ _ => hp, fun _ h0 => absurd h0 (by decide)⟩
  · exact ⟨fun _ h1 => absurd h1 (by decide), fun _ _ => hq⟩

/-- Settles O54, from what a step does to `phase`. -/
theorem phaseChangesOnlyAsStated : Obligations.PhaseChangesOnlyAsStated := by
  intro s t h
  rcases (engineStep_of_step h).phase_change with hsame | ⟨hrun, hstart⟩ | ⟨hidle, hend⟩
  · exact ⟨fun hs ht => (by simp [hsame, hs] at ht), fun hs ht => (by simp [hsame, hs] at ht)⟩
  · exact ⟨fun _ _ => hstart, fun _ ht => (by simp [hrun] at ht)⟩
  · exact ⟨fun _ ht => (by simp [hidle] at ht), fun _ _ => hend⟩

/-- Settles O55, from what a step does to `DONE` and to `ERR` with `ERRCODE`. -/
theorem resultFlagsAreSetOnlyAsStated : Obligations.ResultFlagsAreSetOnlyAsStated := by
  intro s t h
  obtain ⟨hdoneSet, hdoneClear⟩ := flag_changes (engineStep_of_step h).done_change
  have herror := (engineStep_of_step h).error_change
  refine ⟨hdoneSet, fun hs ht => ?_, hdoneClear, fun hc => ?_⟩
  · rcases herror with ⟨hsame, _⟩ | ⟨hp, hw, _, hcode, hvalid⟩ | ⟨hclear, _⟩
    · simp [hsame, hs] at ht
    · exact ⟨hp, hw, hcode, hvalid⟩
    · simp [hclear] at ht
  · rcases herror with ⟨hsame, hcode⟩ | ⟨hp, hw, _⟩ | ⟨_, hcause⟩
    · simp [hsame, hcode] at hc
    · exact .inr (.inr (resultCommandNext_of_generate hw hp))
    · exact hcause

/-- Settles O56, from what a step does to `LOCKERR` and to `ILLCMD`. -/
theorem stickyFlagsChangeOnlyAsStated : Obligations.StickyFlagsChangeOnlyAsStated := by
  intro s t h
  obtain ⟨hlockSet, hlockClear⟩ := flag_changes (engineStep_of_step h).lockErr_change
  obtain ⟨hillSet, hillClear⟩ := flag_changes (engineStep_of_step h).illCmd_change
  exact ⟨hlockSet, hlockClear, hillSet, hillClear⟩

/-- Settles O57: a write that is no ZEROIZE changes only the input at its own address. -/
theorem inputsChangeOnlyByHostOrReset : Obligations.InputsChangeOnlyByHostOrReset := by
  intro s t h
  rcases (engineStep_of_step h).inputs_change with ⟨hkey, hlen, htime⟩ | hreset | ⟨hp, a, w, rest, hs, hw⟩
  · exact ⟨absurd hkey, absurd hlen, absurd htime⟩
  · exact ⟨fun _ => .inl hreset, fun _ => .inl hreset, fun _ => .inl hreset⟩
  · rcases hw with hzeroize | hstore
    · exact ⟨fun _ => .inr ⟨hp, a, w, rest, hs, .inr hzeroize⟩, fun _ => .inr ⟨hp, a, w, rest, hs, .inr hzeroize⟩,
        fun _ => .inr ⟨hp, a, w, rest, hs, .inr (.inr hzeroize)⟩⟩
    · obtain ⟨hkey, hlen, htime⟩ := writeReg_inputs s.engine a w
      rw [← hstore] at hkey hlen htime
      exact ⟨fun hc => .inr ⟨hp, a, w, rest, hs, .inl (hkey.resolve_left hc).2⟩,
        fun hc => .inr ⟨hp, a, w, rest, hs, .inl (hlen.resolve_left hc)⟩,
        fun hc => .inr ⟨hp, a, w, rest, hs, (htime.resolve_left hc).imp_right .inl⟩⟩

/-- Settles O58, from what a step does to the code. -/
theorem codeChangesOnlyAsStated : Obligations.CodeChangesOnlyAsStated := by
  intro s t h hc
  rcases (engineStep_of_step h).code_change with ⟨hvalid, hdigits⟩ | hreset | hcomplete | ⟨hvalid, hp, hw⟩
  · exact absurd hc (by simp [hvalid, hdigits])
  · exact .inl hreset
  · exact .inr (.inl hcomplete)
  · exact .inr (.inr ⟨hp, hvalid, hw⟩)

end Sys2Proof.Proofs
end

section
/-! PROOFS. The register window and each register (`10_state.md` R23 to R46): what it reads, what a write of it does, and
what `loadkey` leaves. -/

namespace Sys2Proof.Proofs

open Sys2Proof.Machine Sys2Proof.Laws

/-! ### Bits -/

/-- A word whose bits are the low `k` bits of `w` is `w` under the mask of these bits. -/
theorem eq_and_lowMask {v w mask : Word} {k : Nat} (hmask : mask = BitVec.ofNat 32 (2 ^ k - 1))
    (h : ∀ i, v.getLsbD i = if i < k then w.getLsbD i else false) : v = w &&& mask := by
  refine BitVec.eq_of_getLsbD_eq fun i hi => ?_
  rw [h, hmask, BitVec.getLsbD_and, BitVec.getLsbD_ofNat, Nat.testBit_two_pow_sub_one]
  simp [hi, Bool.and_comm]

/-! ### The window -/

/-- Settles O3: the map has a left inverse. -/
theorem windowMapHasNoAlias : Obligations.WindowMapHasNoAlias := by
  refine ⟨addr_ofAddr, fun a b h => ?_, ofAddr_cmd, ofAddr_status, ofAddr_irqEn, ofAddr_keyLen, ofAddr_timeHi,
    ofAddr_timeLo, ofAddr_codeBcd, ofAddr_codeAscii0, ofAddr_codeAscii1, ofAddr_step, ofAddr_caps, ?_, ?_⟩
  · rw [← addr_ofAddr a, h, addr_ofAddr]
  · decide
  · decide

/-- Settles O5. The registers are the 64 words of the window, read one by one. -/
theorem resetLeavesTheStatedValues : Obligations.ResetLeavesTheStatedValues := by
  refine ⟨rfl, fun _ => rfl, rfl, rfl, rfl, rfl, rfl, rfl, rfl, rfl, rfl, rfl, none_zero, ?_, rfl, ?_⟩
  · decide
  · exact command_idle (s := State.reset) rfl Engine.accept

/-! ### `STATUS` and `IRQ_EN` -/

/-- What writing 1 to clear leaves of a flag, as a choice on the bit written. -/
theorem and_not_eq_ite (x b : Bool) : (x && !b) = if b then false else x := by
  cases b <;> simp

/-- Settles O21, by the bits of the word that `STATUS` reads. -/
theorem statusReadsFlagsAndClearsOnOne : Obligations.StatusReadsFlagsAndClearsOnOne := by
  constructor
  · intro e
    have hbit := statusWord_bit e
    refine ⟨(hbit 0).trans ?_, hbit 1, hbit 2, hbit 3, hbit 4, ?_, ?_, ?_⟩
    · exact Bool.eq_iff_iff.2 ((busy_iff e).trans decide_eq_true_iff.symm)
    all_goals
      refine BitVec.eq_of_getLsbD_eq fun i hi => ?_
      rw [BitVec.getLsbD_extractLsb', Engine.readReg, hbit]
    · interval_cases i <;> rfl
    · interval_cases i <;> rfl
    · grind
  · intro s w
    exact ⟨_, hostWrite_status s w, rfl, and_not_eq_ite _ _, and_not_eq_ite _ _, rfl, and_not_eq_ite _ _,
      and_not_eq_ite _ _⟩

/-- Settles O22, by the bits of the word that `IRQ_EN` reads. -/
theorem irqEnKeepsTwoBits : Obligations.IrqEnKeepsTwoBits := by
  intro s w
  refine ⟨hostWrite_irqEn s w, eq_and_lowMask (k := 2) (by decide) fun i => ?_⟩
  rw [Engine.readReg, irqEnWord_bit]
  rcases i with _ | _ | i <;> simp

/-! ### `KEYLEN`, `TIME` and the key words -/

/-- Settles O23, by the bits of the word that `KEYLEN` reads. -/
theorem keyLenKeepsEightBits : Obligations.KeyLenKeepsEightBits := by
  intro s w hp
  refine ⟨_, hostWrite_reg ofAddr_keyLen (by decide) (.inr hp) w, rfl, ?_,
    eq_and_lowMask (k := 8) (by decide) fun i => ?_⟩
  · simp [State.onEngine, Engine.writeReg]
  · rw [Engine.readReg, keyLenWord_bit]
    by_cases hi : i < 8 <;> simp [State.onEngine, Engine.writeReg, hi]

/-- Settles O24: the second write finds the first half where the first write put it. -/
theorem timeIsWrittenInHalves : Obligations.TimeIsWrittenInHalves := by
  intro s hi lo hp
  have htime := (congrArg BitVec.toNat (writeTime_both s.engine hi lo)).trans (append_toNat hi lo)
  exact ⟨_, _, hostWrite_reg ofAddr_timeHi (by decide) (.inr hp) hi, rfl, timeHi_writeTimeHi s.engine hi,
    timeLo_writeTimeHi s.engine hi,
    hostWrite_reg (s := s.onEngine fun e => e.writeTimeHi hi) ofAddr_timeLo (by decide) (.inr hp) lo, rfl, htime,
    (timeHi_writeTimeLo (s.engine.writeTimeHi hi) lo).trans (timeHi_writeTimeHi s.engine hi),
    timeLo_writeTimeLo (s.engine.writeTimeHi hi) lo⟩

/-- Settles O25, from what key memory reads after a write of a key word. -/
theorem keyWordWriteStoresFourBytes : Obligations.KeyWordWriteStoresFourBytes := by
  intro s j w hp hk
  have hread := read_writeKeyWord hk j w
  refine ⟨_, hostWrite_reg (ofAddr_keyW j) (by simp) (.inr hp) w, rfl, (hread _).trans ?_, (hread _).trans ?_,
    (hread _).trans ?_, (hread _).trans ?_, fun a ha => (hread a).trans ?_, rfl⟩
  · rw [if_pos rfl]
  · rw [if_neg (by omega), if_pos rfl]
  · rw [if_neg (by omega), if_neg (by omega), if_pos rfl]
  · rw [if_neg (by omega), if_neg (by omega), if_neg (by omega), if_pos rfl]
  · rw [if_neg (by omega), if_neg (by omega), if_neg (by omega), if_neg (by omega)]

/-! ### `loadkey` -/

/-- `loadkey` has events exactly for the keys it can express. -/
theorem scriptLoadKey_isSome (key : List Byte) : (scriptLoadKey key).isSome = loadableKey key := by
  rw [scriptLoadKey]
  cases loadableKey key <;> rfl

/-- Settles O39, from the run of `loadkey`'s events and the bytes that key memory then holds. -/
theorem loadKeyStoresTheKey : Obligations.LoadKeyStoresTheKey := by
  refine ⟨fun key => by rw [scriptLoadKey_isSome, loadableKey_iff], fun s key load hi hp hload => ?_⟩
  obtain ⟨_, _, _, _, hk⟩ := hi
  have hlen : key.length ≤ 64 := by
    rw [← loadableKey_iff, ← scriptLoadKey_isSome, hload]; rfl
  obtain ⟨m, ⟨_, hread⟩, hrun⟩ := run_scriptLoadKey (s := { s with script := load }) hk hp hload
    (List.append_nil load).symm
  refine ⟨_, hrun, rfl, ?_, fun i => (hread i).trans ?_, fun i h1 h2 => (hread i).trans ?_,
    fun i h => (hread i).trans ?_⟩
  · rw [BitVec.toNat_ofNat, Nat.mod_eq_of_lt (by omega)]
  · rw [if_pos (by omega), Nat.mul_zero, Nat.sub_zero]
    exact List.getD_eq_getElem _ _ i.isLt
  · rw [if_pos (by omega), Nat.mul_zero, Nat.sub_zero]
    exact List.getD_eq_default _ _ h1
  · rw [if_neg (by omega)]

/-! ### The lock in RUN -/

/-- Settles O26: outside the locked addresses a write is the same in both phases. -/
theorem lockedRegistersDropWritesInRun : Obligations.LockedRegistersDropWritesInRun := by
  intro s a w hp
  refine ⟨fun ha => hostWrite_locked ((locked_iff a).2 ha) hp w, fun h0 h3 h4 h5 hkey => ?_, rfl⟩
  have hl : (Reg.ofAddr a).locked = false := by
    rw [← Bool.not_eq_true, locked_iff]
    tauto
  refine ⟨hostWrite_store h0 (.inl hl) w, (hostWrite_store h0 (.inl hl) w).trans ?_⟩
  simp only [State.onEngine, writeReg_phase]

/-! ### The code and the constant registers -/

/-- An ASCII digit as a number. -/
theorem asciiDigit_toNat (d : BitVec 4) : (asciiDigit d).toNat = 0x30 + d.toNat := by
  have := d.isLt
  simp [asciiDigit]
  omega

/-- A packed word whose last two bytes are 0x00 has a zero low half. -/
theorem be32_lowHalf_zero (a b : Byte) : (be32 a b 0 0).extractLsb' 0 16 = 0 := by
  refine BitVec.eq_of_getLsbD_eq fun i hi => ?_
  rw [BitVec.getLsbD_extractLsb', be32, BitVec.getLsbD_append, BitVec.getLsbD_append]
  by_cases h : i < 8
  · simp [h]
  · simp [h, show i - 8 < 8 by omega]

/-- With no code, R44 item (c) leaves no digit. -/
theorem codeD_eq_none {e : Engine} (h : e.DigitsDecimal) (hv : e.codeValid = false) : e.codeD = Digits.none :=
  Vector.ext fun i hi => (h.1 hv ⟨i, hi⟩).trans (none_zero ⟨i, hi⟩).symm

/-- Settles O29, by the bits of `CODE_BCD` and the bytes of the two ASCII words. -/
theorem codeRegistersAreViewsOfTheDigits : Obligations.CodeRegistersAreViewsOfTheDigits := by
  intro e hi
  obtain ⟨_, _, hdigits, _, _⟩ := hi
  have hbit := codeBcdWord_bit e
  refine ⟨hbit 31, BitVec.eq_of_getLsbD_eq fun i hi => ?_, fun k => BitVec.eq_of_getLsbD_eq fun i hi => ?_,
    fun hv => ?_, fun hv => ?_⟩
  · rw [BitVec.getLsbD_extractLsb', Engine.readReg, hbit]
    interval_cases i <;> rfl
  · rw [BitVec.getLsbD_extractLsb', Engine.readReg, hbit]
    fin_cases k <;> interval_cases i <;> rfl
  · have h0 : e.readReg .codeAscii0 = _ := if_pos hv
    have h1 : e.readReg .codeAscii1 = _ := if_pos hv
    rw [h0, h1]
    refine ⟨fun k => ?_, ?_, ?_, ?_⟩
    · match k with
      | 0 => rw [← asciiDigit_toNat]; exact congrArg _ (be32_byte0 _ _ _ _)
      | 1 => rw [← asciiDigit_toNat]; exact congrArg _ (be32_byte1 _ _ _ _)
      | 2 => rw [← asciiDigit_toNat]; exact congrArg _ (be32_byte2 _ _ _ _)
      | 3 => rw [← asciiDigit_toNat]; exact congrArg _ (be32_byte3 _ _ _ _)
    · rw [be32_byte0, asciiDigit_toNat]
    · rw [be32_byte1, asciiDigit_toNat]
    · exact be32_lowHalf_zero _ _
  · rw [Engine.readReg, Engine.readReg, Engine.readReg, Engine.codeBcdWord, Engine.codeAscii0Word,
      Engine.codeAscii1Word, hv, codeD_eq_none hdigits hv]
    decide

/-- Settles O30. -/
theorem stepAndCapsAreConstant : Obligations.StepAndCapsAreConstant := by
  intro s w
  exact ⟨rfl, hostWrite_reg ofAddr_step (by decide) (.inl rfl) w, rfl,
    hostWrite_reg ofAddr_caps (by decide) (.inl rfl) w⟩

/-! ### Completion outside its domain -/

/-- Completion in RUN on inputs that are not valid. -/
theorem completion_of_not_inputsValid {s : State} (hp : s.engine.phase = .run) (hv : s.engine.inputsValid = false) :
    completion s = .fault .completionOutsideDomain := by
  simp [completion, hp, hv]

/-- Settles O34: the inputs named are those outside the domain. -/
theorem completionOutsideItsDomainFaults : Obligations.CompletionOutsideItsDomainFaults := by
  intro s hp houtside
  refine completion_of_not_inputsValid hp ?_
  rw [← Bool.not_eq_true, inputsValid_iff]
  omega

end Sys2Proof.Proofs
end

section
/-! PROOFS. The bus and the schedule (`20_memory.md` R65 to R79): which accesses are transactions, what a read and a
write leave as they were, what one step takes, and completion next to a host access. -/

namespace Sys2Proof.Proofs

open Sys2Proof.Machine Sys2Proof.Laws

/-! ### Admitted offsets -/

/-- The admitted offsets as numbers. -/
theorem admittedOffset_iff (off : Nat) : admittedOffset off = true ↔ off % 4 = 0 ∧ off ≤ 0xFC := by
  simp [admittedOffset]

/-- Settles O4. The six address bits hold every admitted offset divided by 4. -/
theorem onlyAlignedOffsetsAreAdmitted : Obligations.OnlyAlignedOffsetsAreAdmitted := by
  intro we off w s
  constructor
  · intro haligned hinside
    refine ⟨BitVec.ofNat 6 (off / 4), by rw [BitVec.toNat_ofNat]; omega, ?_⟩
    rw [hostAccessAt, transactionAt, if_pos ((admittedOffset_iff off).2 ⟨haligned, hinside⟩)]
  · intro hoff
    have hrejected : ¬admittedOffset off = true := by rw [admittedOffset_iff]; omega
    rw [hostAccessAt, transactionAt, if_neg hrejected]

/-! ### One step -/

/-- Completion in IDLE is refused (`44_commands.md` R175). -/
theorem completion_idle {s : State} (hp : s.engine.phase = .idle) : completion s = .refused .completionNotEnabled := by
  rw [completion, hp]

/-- Settles O10, by the oldest pending event. -/
theorem stepStopsOnlyOnRunWhileIdle : Obligations.StepStopsOnlyOnRunWhileIdle := by
  intro s hi
  match hs : s.script with
  | [] =>
    rcases phase_cases s.engine with hp | hp
    · exact .inl ⟨s, step_empty_idle hs hp⟩
    · exact .inl ⟨_, (step_empty_run hs hp).trans (compl_inv hi hp)⟩
  | .access t :: rest =>
    obtain ⟨u, hu⟩ := hostAccess_next t { s with script := rest }
    exact .inl ⟨u, (step_access hs).trans hu⟩
  | .run :: rest =>
    rcases phase_cases s.engine with hp | hp
    · exact .inr ⟨hp, rfl, (step_run hs).trans (completion_idle hp)⟩
    · exact .inl ⟨_, (step_run hs).trans (compl_inv (s := { s with script := rest }) hi hp)⟩
  | .reset :: rest => exact .inl ⟨_, step_reset hs⟩
  | .poll more :: rest => exact .inl ⟨_, step_poll hs⟩

/-- What is pending after a read of `poll`, as a choice on the value read and the latency left. -/
theorem afterPoll_eq_ite (more : Nat) (busy : Bool) (rest : List Event) :
    afterPoll more busy rest =
      if busy = false then rest else if more = 0 then .run :: .poll 0 :: rest else .poll (more - 1) :: rest := by
  cases busy
  · rfl
  · cases more <;> rfl

/-- Settles O12, agent by agent. -/
theorem stepTakesTheOldestEvent : Obligations.StepTakesTheOldestEvent := by
  refine ⟨fun _ _ _ => step_access, fun _ _ => step_run, fun s more rest hs => ?_, fun _ => step_empty_run,
    fun _ => step_empty_idle⟩
  rw [statusBit_busy, ← afterPoll_eq_ite]
  exact step_poll hs

/-- A command in RUN is dropped, whichever it is (`44_commands.md` R178). -/
theorem exec_run {s : State} (hp : s.engine.phase = .run) (i : Instr) :
    exec i s = .next (s.onEngine Engine.dropWrite) := by
  cases i with
  | nop => exact command_run hp id
  | generate => exact command_run hp Engine.accept
  | zeroize => exact command_run hp fun e => e.eraseInputs.clearResult

/-- A write to `CMD` of a word that decodes is that command, in either phase. -/
theorem hostWrite_cmd_of_decode {w : Word} {i : Instr} (hd : decode w = .ok i) (s : State) :
    hostWrite 0x00 w s = exec i s := by
  rcases phase_cases s.engine with hp | hp
  · exact (hostWrite_cmd hp w).trans (by rw [execCommand, hd])
  · rw [hostWrite_locked rfl hp, exec_run hp]

/-- Settles O11. -/
theorem stepRunsTheDecodedCommand : Obligations.StepRunsTheDecodedCommand := by
  intro s w rest i hs hd
  exact (step_access hs).trans (hostWrite_cmd_of_decode hd { s with script := rest })

/-! ### Reads -/

/-- A read step returns what the register reads and changes nothing else (`20_memory.md` R67). -/
theorem step_read {s : State} {a : WordAddr} {d : Word} {rest : List Event}
    (hs : s.script = .access ⟨false, a, d⟩ :: rest) :
    step s = .next { s with script := rest, reads := s.engine.readReg (Reg.ofAddr a) :: s.reads } :=
  step_access hs

/-- Settles O28: two read steps, and the first leaves the engine that the second reads. -/
theorem readsHaveNoSideEffect : Obligations.ReadsHaveNoSideEffect := by
  rintro s a d1 d2 rest v hs rfl
  exact ⟨step_read hs, step_read rfl⟩

/-! ### Reserved words, read-only registers and reserved fields -/

/-- Where no register takes a write, a register write changes nothing. -/
theorem writeReg_of_ignored {a : WordAddr} (ha : (0x06 ≤ a.toNat ∧ a.toNat < 0x10) ∨ 0x20 ≤ a.toNat) (e : Engine)
    (w : Word) : e.writeReg (Reg.ofAddr a) w = e := by
  have haddr := addr_ofAddr a
  cases hr : Reg.ofAddr a <;> rw [hr] at haddr <;> subst haddr
  case cmd | status | irqEn | keyLen | timeHi | timeLo => exact absurd ha (by decide)
  case keyW j => exact absurd ha (by clear hr ha; revert j; decide)
  all_goals rfl

/-- The words that ignore writes are not locked. -/
theorem locked_of_ignored : ∀ a : WordAddr, (0x06 ≤ a.toNat ∧ a.toNat < 0x10) ∨ 0x20 ≤ a.toNat →
    (Reg.ofAddr a).locked = false := by decide

/-- Reserved words and write-only registers read 0. -/
theorem readReg_of_unreadable {a : WordAddr} (ha : a = 0x00 ∨ 0x0B ≤ a.toNat) (e : Engine) :
    e.readReg (Reg.ofAddr a) = 0 := by
  have haddr := addr_ofAddr a
  cases hr : Reg.ofAddr a
  case cmd | keyW | reserved => rfl
  all_goals rw [hr] at haddr; subst haddr; exact absurd ha (by decide)

/-- Two words that a register other than `CMD` stores alike are alike to a host write, in either phase. -/
theorem hostWrite_congr {a : WordAddr} {v w : Word} (hc : a ≠ 0x00)
    (h : ∀ e : Engine, e.writeReg (Reg.ofAddr a) v = e.writeReg (Reg.ofAddr a) w) (s : State) :
    hostWrite a v s = hostWrite a w s := by
  by_cases hl : (Reg.ofAddr a).locked = true ∧ s.engine.phase = .run
  · obtain ⟨hlocked, hp⟩ := hl
    rw [hostWrite_locked hlocked hp, hostWrite_locked hlocked hp]
  · have hstore : (Reg.ofAddr a).locked = false ∨ s.engine.phase = .idle := by
      rcases phase_cases s.engine with hp | hp
      · exact .inr hp
      · exact .inl (Bool.eq_false_of_not_eq_true fun hlocked => hl ⟨hlocked, hp⟩)
    rw [hostWrite_store hc hstore, hostWrite_store hc hstore, State.onEngine, State.onEngine, h]

/-- `STATUS` stores nothing of a word but its bits 1 to 4. -/
theorem writeStatus_mask (e : Engine) (w : Word) : e.writeStatus w = e.writeStatus (w &&& 0x0000001E) := by
  simp [Engine.writeStatus]

/-- `IRQ_EN` stores nothing of a word but its bits 0 and 1. -/
theorem writeIrqEn_mask (e : Engine) (w : Word) : e.writeIrqEn w = e.writeIrqEn (w &&& 0x00000003) := by
  simp [Engine.writeIrqEn]

/-- `KEYLEN` stores nothing of a word but its bits 0 to 7. -/
theorem writeKeyLen_mask (e : Engine) (w : Word) : e.writeKeyLen w = e.writeKeyLen (w &&& 0x000000FF) := by
  have hmask : (0x000000FF : Word).extractLsb' 0 8 = BitVec.allOnes 8 := by decide
  rw [Engine.writeKeyLen, Engine.writeKeyLen, BitVec.extractLsb'_and, hmask, BitVec.and_allOnes]

/-- A word is 0 under a mask when no bit stands in both. -/
theorem and_eq_zero_of_bits {v mask : Word} (h : ∀ i, i < 32 → (mask.getLsbD i && v.getLsbD i) = false) :
    v &&& mask = 0 := by
  refine BitVec.eq_of_getLsbD_eq fun i hi => ?_
  rw [BitVec.getLsbD_and, Bool.and_comm, h i hi]
  exact BitVec.getLsbD_zero.symm

/-- The low half of what `CODE_ASCII1` reads is 0. -/
theorem codeAscii1Word_bit_of_lt (e : Engine) {i : Nat} (hi : i < 16) : e.codeAscii1Word.getLsbD i = false := by
  rw [Engine.codeAscii1Word]
  split
  · have hlow := congrArg (BitVec.getLsbD · i) (be32_lowHalf_zero (asciiDigit e.codeD[4]) (asciiDigit e.codeD[5]))
    simpa [hi] using hlow
  · exact BitVec.getLsbD_zero

/-- Reserved fields read 0, bit by bit. -/
theorem readReg_reservedFields (e : Engine) :
    e.readReg .status &&& 0xFFFFF8E0 = 0 ∧ e.readReg .irqEn &&& 0xFFFFFFFC = 0 ∧
    e.readReg .keyLen &&& 0xFFFFFF00 = 0 ∧ e.readReg .codeBcd &&& 0x7F000000 = 0 ∧
    e.readReg .codeAscii1 &&& 0x0000FFFF = 0 ∧ e.readReg .caps &&& 0xFFFF0000 = 0 := by
  refine ⟨and_eq_zero_of_bits fun i hi => ?_, and_eq_zero_of_bits fun i hi => ?_, and_eq_zero_of_bits fun i hi => ?_,
    and_eq_zero_of_bits fun i hi => ?_, and_eq_zero_of_bits fun i hi => ?_,
    (by decide : capsWord &&& 0xFFFF0000 = 0)⟩
  · rw [Engine.readReg, statusWord_bit]
    interval_cases i <;> rfl
  · rw [Engine.readReg, irqEnWord_bit]
    interval_cases i <;> rfl
  · rw [Engine.readReg, keyLenWord_bit]
    interval_cases i <;> rfl
  · rw [Engine.readReg, codeBcdWord_bit]
    interval_cases i <;> rfl
  · rw [Engine.readReg]
    by_cases hlow : i < 16
    · rw [codeAscii1Word_bit_of_lt e hlow, Bool.and_false]
    · interval_cases i <;> rfl

/-- Settles O27, clause by clause: words that store nothing, words that read 0, reserved fields read and written. -/
theorem reservedAndReadOnlyWordsIgnoreWrites : Obligations.ReservedAndReadOnlyWordsIgnoreWrites := by
  refine ⟨fun s a w ha => ?_, fun e a ha => readReg_of_unreadable ha e, readReg_reservedFields, fun s w =>
    ⟨hostWrite_congr (a := 0x01) (by decide) (fun e => writeStatus_mask e w) s,
      hostWrite_congr (a := 0x02) (by decide) (fun e => writeIrqEn_mask e w) s,
      hostWrite_congr (a := 0x03) (by decide) (fun e => writeKeyLen_mask e w) s⟩⟩
  have hcmd : a ≠ 0x00 := by rintro rfl; revert ha; decide
  rw [hostWrite_store hcmd (.inl (locked_of_ignored a ha)), State.onEngine, writeReg_of_ignored ha]

/-! ### Completion and the host -/

/-- Settles O40: completion keeps the inputs, so acceptance starts again on the inputs of the code published. -/
theorem repeatedGenerateYieldsTheSameCode : Obligations.RepeatedGenerateYieldsTheSameCode := by
  intro s t hcompletion
  obtain ⟨_, h1, h64, htime, rfl⟩ := completion_cases hcompletion
  have haccept : s.engine.publish.accept = { s.engine.publish.clearResult with phase := .run } :=
    accept_of_inputsValid ((inputsValid_iff _).2 ⟨h1, h64, htime⟩)
  have hgenerate : exec .generate (s.onEngine Engine.publish) =
      .next { s with engine := { s.engine.publish.clearResult with phase := .run } } := by
    rw [← haccept]
    exact command_idle (s := s.onEngine Engine.publish) rfl Engine.accept
  exact ⟨_, _, hgenerate, rfl, rfl, completion_run rfl h1 h64 htime, rfl, rfl, rfl⟩

/-- Settles O59: in RUN the write keeps the phase and the inputs, so completion finds them as they were. -/
theorem sameCycleWriteComesBeforeCompletion : Obligations.SameCycleWriteComesBeforeCompletion := by
  intro s a w hp h1 h64 htime
  obtain ⟨t, haccess⟩ := hostAccess_next ⟨true, a, w⟩ s
  obtain ⟨hrun, hkey, hlen, ht⟩ := hostAccess_run hp haccess
  have hwrite : hostWrite a w s = .next t := haccess
  rw [← hlen] at h1 h64
  rw [← ht] at htime
  have hcompletion := completion_run hrun h1 h64 htime
  refine ⟨t, _, hwrite, hcompletion, ?_, rfl, rfl, ?_, fun hl => ?_⟩
  · simp [clockCycle, Pins.busAccess, haccess, hcompletion]
  · rw [← hkey, ← hlen, ← ht]; rfl
  · cases hwrite.symm.trans (hostWrite_locked hl hp w)
    rfl

end Sys2Proof.Proofs
end

section
/-! PROOFS. The command word (`30_encoding.md` R93 to R96): decoder, encoder and command table agree, and what a reserved
word written to `CMD` does. -/

namespace Sys2Proof.Proofs

open Sys2Proof.Machine Sys2Proof.Laws

/-! ### Decoder, encoder and command table -/

/-- A command's word decodes to the command. -/
theorem decode_encode (i : Instr) : decode (encode i) = .ok i := by
  cases i <;> rfl

/-- A word decodes to a command exactly when it is that command's word. -/
theorem decode_eq_ok_iff (w : Word) (i : Instr) : decode w = .ok i ↔ w = encode i := by
  constructor
  · intro h
    rcases decode_cases w with ⟨hw, hd⟩ | ⟨hw, hd⟩ | ⟨hw, hd⟩ | ⟨_, _, _, hd⟩ <;> cases hd.symm.trans h <;> exact hw
  · rintro rfl
    exact decode_encode i

/-- Every word other than the three command words is reserved. -/
theorem decode_of_reserved {w : Word} (h0 : w ≠ 0x00000000) (h1 : w ≠ 0x00000001) (h2 : w ≠ 0x00000002) :
    decode w = .error (.reservedCommand w) := by
  rcases decode_cases w with ⟨hw, _⟩ | ⟨hw, _⟩ | ⟨hw, _⟩ | ⟨_, _, _, hd⟩
  · exact absurd hw h0
  · exact absurd hw h1
  · exact absurd hw h2
  · exact hd

/-- A word selects a row with the full mask exactly when it is the row's word. -/
theorem selectedBy_iff_of_fullMask {r : TableRow} (hmask : r.mask = 0xFFFFFFFF) (w : Word) :
    r.selectedBy w = true ↔ w = r.matchWord := by
  have hfull : (0xFFFFFFFF : Word) = BitVec.allOnes 32 := by decide
  rw [TableRow.selectedBy, hmask, hfull, BitVec.and_allOnes, beq_iff_eq]

/-- Every row of the table has the full mask, and the word of its command. -/
theorem commandTable_rows : ∀ r ∈ commandTable, r.mask = 0xFFFFFFFF ∧ r.matchWord = encode r.command := by decide

/-- A word selects a row of the table exactly when it decodes to the row's command. -/
theorem selectedBy_iff_decode {r : TableRow} (hr : r ∈ commandTable) (w : Word) :
    r.selectedBy w = true ↔ decode w = .ok r.command := by
  obtain ⟨hmask, hmatch⟩ := commandTable_rows r hr
  rw [selectedBy_iff_of_fullMask hmask, hmatch, decode_eq_ok_iff]

/-- A word that decodes selects its command's row and no other. -/
theorem commandTable_filter_of_decode {w : Word} {i : Instr} (hd : decode w = .ok i) :
    commandTable.filter (fun r => r.selectedBy w) = [⟨i, encode i, 0xFFFFFFFF⟩] := by
  have hsame : ∀ r ∈ commandTable, r.selectedBy w = (r.command == i) := fun r hr => by
    rw [Bool.eq_iff_iff, selectedBy_iff_decode hr, hd, beq_iff_eq, Except.ok.injEq, eq_comm]
  rw [List.filter_congr hsame]
  cases i <;> decide

/-- Settles O2. A row that a word selects is a row of the table, so the word decodes to the row's command. -/
theorem decodeAgreesWithEncodeAndTable : Obligations.DecodeAgreesWithEncodeAndTable := by
  refine ⟨fun i _ => decode_encode i, fun w i => (decode_eq_ok_iff w i).1,
    fun w i => ⟨commandTable_filter_of_decode, fun hrows => ?_⟩, fun _ => decode_of_reserved⟩
  have hrow : (⟨i, encode i, 0xFFFFFFFF⟩ : TableRow) ∈ commandTable.filter (fun r => r.selectedBy w) := by
    rw [hrows]; exact List.mem_singleton_self _
  obtain ⟨hmem, hsel⟩ := List.mem_filter.1 hrow
  exact (selectedBy_iff_decode hmem w).1 hsel

/-- Settles O1. -/
theorem commandWordsDecode : Obligations.CommandWordsDecode :=
  ⟨decode_encode .nop, decode_encode .generate, decode_encode .zeroize,
    decode_of_reserved (by decide) (by decide) (by decide), decode_of_reserved (by decide) (by decide) (by decide),
    decode_of_reserved (by decide) (by decide) (by decide), decode_of_reserved (by decide) (by decide) (by decide)⟩

/-! ### A reserved word written to `CMD` -/

/-- A reserved word written to `CMD` in IDLE is flagged, and that is all (`30_encoding.md` R96). -/
theorem hostWrite_cmd_of_reserved {w : Word} (hd : decode w = .error (.reservedCommand w)) {s : State}
    (hp : s.engine.phase = .idle) : hostWrite 0x00 w s = .next (s.onEngine Engine.flagReserved) :=
  (hostWrite_cmd hp w).trans (by rw [execCommand, hd])

/-- Settles O18: in IDLE the word is decoded, in RUN the lock comes first. -/
theorem reservedWordOnlySetsIllcmd : Obligations.ReservedWordOnlySetsIllcmd := fun _ w h0 h1 h2 =>
  ⟨fun hp => hostWrite_cmd_of_reserved (decode_of_reserved h0 h1 h2) hp, fun hp => hostWrite_locked rfl hp w⟩

end Sys2Proof.Proofs
end

section
/-! PROOFS. RUN ends (`44_commands.md` R179): by the events pending, or by the engine's own completion after them; and the
reads of `poll` until then (`30_encoding.md` R100). -/

namespace Sys2Proof.Proofs

open Sys2Proof.Machine Sys2Proof.Laws

/-- In RUN the invariant puts the inputs in the domain of `44_commands.md` R174. -/
theorem inputsValid_of_inv {s : State} (hi : s.Inv) (hp : s.engine.phase = .run) : s.engine.inputsValid = true := by
  obtain ⟨_, h1, h64, htime, _⟩ := completion_cases (compl_inv hi hp)
  exact (inputsValid_iff s.engine).2 ⟨h1, h64, htime⟩

/-- A host access in RUN keeps the phase and the invariant, and takes only itself from what is pending. -/
theorem step_access_run {s : State} {t : Txn} {rest : List Event} (hi : s.Inv) (hp : s.engine.phase = .run)
    (hs : s.script = .access t :: rest) :
    ∃ u, step s = .next u ∧ u.Inv ∧ u.engine.phase = .run ∧ u.script = rest := by
  obtain ⟨u, haccess⟩ := hostAccess_next t { s with script := rest }
  have hstep := (step_access hs).trans haccess
  obtain ⟨hrun, _⟩ := hostAccess_run (s := { s with script := rest }) hp haccess
  exact ⟨u, hstep, stepKeepsTheInvariant s u hi hstep, hrun, hostAccess_script haccess⟩

/-- From RUN, IDLE comes within one step more than the pending events can take: host accesses leave the engine in RUN,
every other event ends it, and with none pending the engine completes. -/
theorem exists_run_idle {events : List Event} {s : State} (hi : s.Inv) (hp : s.engine.phase = .run)
    (hs : s.script = events) :
    ∃ (n : Nat) (t : State), n ≤ (events.map Event.steps).sum + 1 ∧ core.run n s = .next t ∧
      t.engine.phase = .idle := by
  induction events generalizing s with
  | nil =>
    have hstep := (step_empty_run hs hp).trans (compl_inv hi hp)
    exact ⟨1, _, by simp, run_of_step hstep (run_zero _), rfl⟩
  | cons ev rest ih =>
    have hv := inputsValid_of_inv hi hp
    rw [List.map_cons, List.sum_cons]
    cases ev with
    | access t =>
      obtain ⟨u, hstep, hiu, hpu, hsu⟩ := step_access_run hi hp hs
      obtain ⟨n, t, hn, hrun, ht⟩ := ih hiu hpu hsu
      exact ⟨n + 1, t, by rw [Event.steps]; omega, run_of_step hstep hrun, ht⟩
    | run => exact ⟨1, _, by omega, run_of_step (step_run_of_inputsValid hp hv hs) (run_zero _), rfl⟩
    | reset => exact ⟨1, _, by omega, run_of_step (step_reset hs) (run_zero _), rfl⟩
    | poll more => exact ⟨more + 3, _, by rw [Event.steps]; omega, run_poll hp hv hs, rfl⟩

/-- Settles O37, by the pending events one by one and by the reads of `poll`. -/
theorem runEndsAfterFinitelyManySteps : Obligations.RunEndsAfterFinitelyManySteps := by
  refine ⟨fun s hi hp => exists_run_idle hi hp rfl, fun s more rest hi hs hp => ?_, fun s more rest hs hp => ?_⟩
  · refine ⟨by rw [statusBit_busy, busy_of_run hp], _, _, compl_inv hi hp, ?_,
      run_poll hp (inputsValid_of_inv hi hp) hs, rfl, rfl, rfl⟩
    rw [statusBit_busy]
    exact busy_of_idle (publish_phase s.engine)
  · have hbusy := busy_of_idle hp
    refine ⟨by rw [statusBit_busy, hbusy], ?_⟩
    rw [step_poll hs, hbusy, afterPoll_done]

end Sys2Proof.Proofs
end

section
/-! PROOFS. The counter (`40_counter.md`): its value as a number, its windows of 30 seconds and its bytes. -/

namespace Sys2Proof.Proofs

open Sys2Proof.Machine Sys2Proof.Laws

/-- R111. The division is unsigned, so no bound on the time is needed. -/
@[simp] theorem counter_toNat (t : BitVec 64) : (counter t).toNat = t.toNat / 30 := by
  simp [counter, Config.stepSeconds]

/-- Two times are in one 30-second window exactly when they have the same counter. -/
theorem counter_eq_iff (t1 t2 : BitVec 64) : counter t1 = counter t2 ↔ t1.toNat / 30 = t2.toNat / 30 := by
  rw [← BitVec.toNat_inj, counter_toNat, counter_toNat]

/-- R116 (b): the counter grows by one from one window to the next, where the later time is a 64-bit number. -/
theorem counter_add_step {t : BitVec 64} (h : t.toNat + 30 < 2 ^ 64) :
    (counter (t + 30)).toNat = (counter t).toNat + 1 := by
  have hadd : (t + 30).toNat = t.toNat + 30 := BitVec.toNat_add_of_lt h
  rw [counter_toNat, counter_toNat, hadd, Nat.add_div_right _ (by decide)]

/-- The time enters the code through its counter alone (R174). -/
theorem generateCode_eq_of_counter_eq (key : List Byte) {t1 t2 : BitVec 64} (h : counter t1 = counter t2) :
    generateCode key t1 = generateCode key t2 := by
  rw [generateCode, generateCode, codeDigest, codeDigest, h]

/-- Settles O41: the bound is the greatest valid time divided by 30. -/
theorem counterIsFloorOfTimeByThirty : Obligations.CounterIsFloorOfTimeByThirty := by
  intro t ht
  refine ⟨counter_toNat t, ?_⟩
  rw [counter_toNat]
  omega

/-- Settles O42: a window is a value of the counter, and the code depends on the time through the counter. -/
theorem timeWindowsShareACode : Obligations.TimeWindowsShareACode := by
  refine ⟨fun key t1 t2 _ _ hwindow => ?_, fun t1 t2 _ _ hle => ?_, fun t ht => ?_⟩
  · have hcounter := (counter_eq_iff t1 t2).mpr hwindow
    exact ⟨hcounter, generateCode_eq_of_counter_eq key hcounter⟩
  · rw [counter_toNat, counter_toNat]
    exact Nat.div_le_div_right hle
  · exact counter_add_step (by omega)

/-- Settles O43, from the bytes of a 64-bit number. -/
theorem counterBytesAreBigEndian : Obligations.CounterBytesAreBigEndian :=
  fun c j => bytesBE64_get c j j.isLt

end Sys2Proof.Proofs
end

section
/-! PROOFS. SHA-1 (`41_hmac_sha1.md` R121 to R127): the padding, the schedule, the rounds, the blocks and the bytes of
the digest. -/

namespace Sys2Proof.Proofs

open Sys2Proof.Machine Sys2Proof.Laws

/-! ### Padding -/

theorem padZeros_mod (L : Nat) : (L + 1 + padZeros L) % 64 = 56 := by
  rw [padZeros]
  omega

theorem padZeros_le {L z : Nat} (h : (L + 1 + z) % 64 = 56) : padZeros L ≤ z := by
  rw [padZeros]
  omega

/-- The message, the byte 0x80, the zeros and the eight bytes of the length. -/
theorem pad_length (m : List Byte) : (pad m).length = m.length + 9 + padZeros m.length := by
  simp only [pad_eq, List.length_append, List.length_singleton, List.length_replicate, Vector.length_toList]
  omega

/-- A last block takes at most 55 message bytes beside 0x80 and the length. -/
theorem pad_length_eq_blocks (m : List Byte) :
    (pad m).length = 64 * (m.length / 64 + if m.length % 64 ≤ 55 then 1 else 2) := by
  rw [pad_length, padZeros]
  split <;> omega

/-- Below 2^61 bytes the length in bits is a 64-bit number, so its bytes are those of the length itself. -/
theorem lengthField_get {L : Nat} (hL : L < 2 ^ 61) (j : Fin 8) :
    (bytesBE64 (BitVec.ofNat 64 (8 * L)))[j].toNat = 8 * L / 2 ^ (8 * (7 - j.val)) % 256 := by
  have hbits : (BitVec.ofNat 64 (8 * L)).toNat = 8 * L := by rw [BitVec.toNat_ofNat, Nat.mod_eq_of_lt (by omega)]
  exact (bytesBE64_get _ j j.isLt).trans (by rw [hbits])

/-- Settles O44, with the zeros and the length field of `pad` itself. -/
theorem paddingFillsWholeBlocks : Obligations.PaddingFillsWholeBlocks := fun m hm =>
  ⟨_, _, pad_eq m, padZeros_mod _, fun _ => padZeros_le, lengthField_get hm,
    by rw [pad_length]; omega, pad_length_eq_blocks m⟩

/-! ### The schedule -/

theorem schedule_length {block : List Byte} (h : block.length = 64) : (schedule block).length = 80 := by
  rw [schedule, List.length_reverse, extend_length, List.length_reverse, wordsOf_length, h]

/-- The words of the block come first in the schedule. -/
theorem schedule_eq_append (block : List Byte) : ∃ later : List Word, schedule block = wordsOf block ++ later := by
  obtain ⟨new, hnew, _⟩ := extend_suffix 64 (wordsOf block).reverse
  exact ⟨new.reverse, by rw [schedule, hnew, List.reverse_append, List.reverse_reverse]⟩

/-- R123: one of the first sixteen words of the schedule. -/
theorem schedule_get_of_lt {block : List Byte} (h : block.length = 64) {t : Nat} (ht : t < 16) :
    (schedule block)[t]? = some (be32 (block.getD (4 * t) 0) (block.getD (4 * t + 1) 0) (block.getD (4 * t + 2) 0)
      (block.getD (4 * t + 3) 0)) := by
  obtain ⟨later, hlater⟩ := schedule_eq_append block
  rw [hlater, List.getElem?_append_left (by rw [wordsOf_length]; omega), wordsOf_get block t (by omega)]

/-- R124: one of the later words of the schedule. -/
theorem schedule_getD_of_ge {block : List Byte} (h : block.length = 64) {t : Nat} (h16 : 16 ≤ t) (h80 : t < 80) :
    (schedule block).getD t 0 = rotl32 ((schedule block).getD (t - 3) 0 ^^^ (schedule block).getD (t - 8) 0 ^^^
      (schedule block).getD (t - 14) 0 ^^^ (schedule block).getD (t - 16) 0) 1 := by
  have hwords : (wordsOf block).reverse.length = 16 := by rw [List.length_reverse, wordsOf_length, h]
  exact extend_get 64 _ t (by omega) (by omega) (by omega)

/-- Settles O45, from the two kinds of schedule word. -/
theorem scheduleFollowsItsRecurrence : Obligations.ScheduleFollowsItsRecurrence := by
  refine fun block h => ⟨schedule_length h, fun t ht => ?_, fun t h16 h80 => ?_⟩
  · rw [schedule_get_of_lt h ht, Option.map_some, be32_toNat]
  · rw [schedule_getD_of_ge h h16 h80, rotl32_eq_rotateLeft _ (by decide)]

/-! ### The compression function -/

/-- The working words `(a, b, c, d, e)` after the first `t` rounds of `compress h block` (R126). -/
def workingWords (h : Hash) (block : List Byte) (t : Nat) : Hash := sha1Rounds 0 ((schedule block).take t) h

/-- Each round takes the next schedule word. -/
theorem workingWords_succ (h : Hash) {block : List Byte} (hb : block.length = 64) {t : Nat} (ht : t < 80) :
    workingWords h block (t + 1) = sha1Round t ((schedule block).getD t 0) (workingWords h block t) := by
  have hlt : t < (schedule block).length := by rw [schedule_length hb]; exact ht
  have htake : ((schedule block).take t).length = t := List.length_take_of_le hlt.le
  rw [workingWords, List.take_succ_eq_append_getElem hlt, rounds_append, htake, Nat.zero_add,
    List.getD_eq_getElem _ _ hlt, workingWords]

/-- After eighty rounds every word of the schedule is used. -/
theorem compress_eq_add_workingWords (h : Hash) {block : List Byte} (hb : block.length = 64) :
    compress h block = h.add (workingWords h block 80) := by
  rw [compress, workingWords, List.take_of_length_le (schedule_length hb).le]

/-- R125: the two ranges of rounds with the three-way exclusive or, in one case. -/
theorem roundFunction_eq (t : Nat) (b c d : Word) :
    roundFunction t b c d =
      if t < 20 then (b &&& c) ||| (~~~b &&& d)
      else if 40 ≤ t ∧ t < 60 then (b &&& c) ||| (b &&& d) ||| (c &&& d)
      else b ^^^ c ^^^ d := by
  rw [roundFunction]
  rcases Nat.lt_or_ge t 40 with h40 | h40
  · rw [if_pos h40, if_neg (show ¬(40 ≤ t ∧ t < 60) by omega)]
  · simp only [if_neg (Nat.not_lt.mpr h40), h40, true_and]

/-- Settles O46: the states are the working words after each round. -/
theorem compressionIsEightyRounds : Obligations.CompressionIsEightyRounds := by
  refine fun h block hb => ⟨workingWords h block, rfl, fun t ht => ?_, compress_eq_add_workingWords h hb⟩
  rw [workingWords_succ h hb ht]
  refine ⟨?_, rfl, rotl32_eq_rotateLeft _ (by decide), rfl, rfl⟩
  rw [sha1Round, roundFunction_eq, roundConstant, rotl32_eq_rotateLeft _ (by decide)]

/-! ### The hash -/

/-- Settles O47, with the blocks the model cuts; byte `j` of each of the five words is one of four cases. -/
theorem hashFoldsOverTheBlocks : Obligations.HashFoldsOverTheBlocks := by
  refine ⟨fun m _ => ?_, fun h j => ?_⟩
  · have hblocks : (pad m).length = 64 * ((pad m).length / 64) := by
      rw [pad_length_eq_blocks, Nat.mul_div_cancel_left _ (by decide)]
    obtain ⟨hflatten, hlength⟩ := blocks_spec _ (pad m) hblocks
    exact ⟨_, hflatten, hlength, rfl⟩
  · simp only [← toList_getD, digest_toList, bytesBE32_toList]
    fin_cases j <;> exact ⟨rfl, rfl, rfl, rfl, rfl⟩

end Sys2Proof.Proofs
end

section
/-! PROOFS. HMAC with SHA-1 (`41_hmac_sha1.md` R130 to R135): how a key is brought to one block, the two hashes as four
compressions, and what of the key the result depends on. -/

namespace Sys2Proof.Proofs

open Sys2Proof.Machine Sys2Proof.Laws

/-! ### Key preparation -/

theorem prepareKey_long {key : List Byte} (h : 64 < key.length) :
    prepareKey key = (sha1 key).toList ++ List.replicate 44 0 := by
  have hblock : Config.blockBytes = 64 := rfl
  rw [prepareKey, hblock, if_pos h, Vector.length_toList]

theorem prepareKey_length (key : List Byte) : (prepareKey key).length = 64 := by
  rcases Nat.lt_or_ge 64 key.length with h | h
  · rw [prepareKey_long h, List.length_append, Vector.length_toList, List.length_replicate]
  · rw [prepareKey_short h, List.length_append, List.length_replicate]
    omega

/-- A long key is prepared as its own hash is. -/
theorem prepareKey_sha1 {key : List Byte} (h : 64 < key.length) : prepareKey (sha1 key).toList = prepareKey key := by
  rw [prepareKey_long h, prepareKey_short (by rw [Vector.length_toList]; decide), Vector.length_toList]

/-- The zeros at the end of a key are among those its preparation adds. -/
theorem prepareKey_append_zeros {key : List Byte} {n : Nat} (h : key.length + n ≤ 64) :
    prepareKey (key ++ List.replicate n 0) = prepareKey key := by
  have hlength : (key ++ List.replicate n (0 : Byte)).length = key.length + n := by simp
  rw [prepareKey_short (by omega), prepareKey_short (by omega), hlength, List.append_assoc,
    List.replicate_append_replicate]
  congr 2
  omega

/-- The key enters HMAC through its preparation alone (R132). -/
theorem hmacSha1_eq_of_prepareKey_eq {key1 key2 : List Byte} (h : prepareKey key1 = prepareKey key2) (m : List Byte) :
    hmacSha1 key1 m = hmacSha1 key2 m := by
  rw [hmacSha1, hmacSha1, hmacInner, hmacInner, h]

/-- Settles O48, from the preparation of long and of short keys. -/
theorem longKeysAreHashedFirst : Obligations.LongKeysAreHashedFirst :=
  ⟨fun _ h => prepareKey_long h, fun _ m h => hmacSha1_eq_of_prepareKey_eq (prepareKey_sha1 h).symm m,
    prepareKey_length, fun _ h => prepareKey_short h⟩

/-- Settles O50: the two keys are prepared alike. -/
theorem trailingZeroKeyBytesDoNotMatter : Obligations.TrailingZeroKeyBytesDoNotMatter := fun _ m _ h =>
  hmacSha1_eq_of_prepareKey_eq (prepareKey_append_zeros h) m

/-! ### Four compressions -/

theorem xorPad_length (k0 : List Byte) (p : Byte) : (xorPad k0 p).length = k0.length := List.length_map _

/-- Settles O49: each of the two hashes is of the padded key block and of one short message, so of two blocks. -/
theorem hmacIsFourCompressions : Obligations.HmacIsFourCompressions := by
  rintro key cb _ h64 k0 rfl inner rfl
  have hpad (p : Byte) : (xorPad (prepareKey key) p).length = 64 := by rw [xorPad_length, prepareKey_length]
  rw [← prepareKey_short h64, hmacSha1, sha1_two _ _ (hpad 0x5C) (by rw [Vector.length_toList]; decide), hmacInner,
    sha1_two _ _ (hpad 0x36) (by rw [Vector.length_toList]; decide)]
  have hinnerLength : (bytesBE64 (BitVec.ofNat 64 (8 * (64 + 8)))).toList = [0, 0, 0, 0, 0, 0, 0x02, 0x40] := by decide
  have houterLength : (bytesBE64 (BitVec.ofNat 64 (8 * (64 + 20)))).toList = [0, 0, 0, 0, 0, 0, 0x02, 0xA0] := by decide
  simp only [Vector.length_toList, hinnerLength, houterLength]
  rfl

/-! ### What the result depends on -/

/-- The key of an operation is the bytes of key memory below `KEYLEN`. -/
theorem keyBytes_congr {e1 e2 : Engine} (hlen : e1.keyLen = e2.keyLen)
    (hkey : ∀ i : Nat, i < e1.keyLen.toNat → e1.key.read i = e2.key.read i) : e1.keyBytes = e2.keyBytes := by
  rw [Engine.keyBytes, Engine.keyBytes, ← hlen]
  exact List.map_congr_left fun i hi => hkey i (List.mem_range.mp hi)

/-- Settles O35: what completion publishes is a function of the key bytes and the time. -/
theorem resultDependsOnlyOnKeyAndTime : Obligations.ResultDependsOnlyOnKeyAndTime := by
  intro s1 s2 t1 t2 hlen htime hkey h1 h2
  obtain ⟨_, _, _, _, rfl⟩ := completion_cases h1
  obtain ⟨_, _, _, _, rfl⟩ := completion_cases h2
  have hpublish : s1.engine.publish.codeD = s2.engine.publish.codeD := by
    rw [publish_codeD, publish_codeD, keyBytes_congr hlen hkey, htime]
  exact hpublish

end Sys2Proof.Proofs
end

section
/-! PROOFS. Dynamic truncation (`42_truncate.md` R151 to R154) as arithmetic on unsigned numbers. -/

namespace Sys2Proof.Proofs

open Sys2Proof.Machine Sys2Proof.Laws

/-- R151. -/
theorem truncOffset_toNat (d : Digest) : (truncOffset d).toNat = d[19].toNat % 16 := by
  rw [truncOffset, BitVec.extractLsb'_toNat, Nat.shiftRight_zero]

/-- R152. The four bytes lie below byte 19, so each default of `getD` is unused. -/
theorem truncWord_toNat (d : Digest) {o : Nat} (ho : (truncOffset d).toNat = o) :
    (truncWord d).toNat =
      (d.toList.getD o 0).toNat * 2 ^ 24 + (d.toList.getD (o + 1) 0).toNat * 2 ^ 16 +
        (d.toList.getD (o + 2) 0).toNat * 2 ^ 8 + (d.toList.getD (o + 3) 0).toNat := by
  subst ho
  have hlt : (truncOffset d).toNat < 16 := (truncOffset d).isLt
  rw [toList_getD d _ (by omega), toList_getD d _ (by omega), toList_getD d _ (by omega), toList_getD d _ (by omega)]
  exact be32_toNat _ _ _ _

/-- R153. The mask keeps the low 31 bits. -/
theorem truncatedValue_toNat (d : Digest) : (truncatedValue d).toNat = (truncWord d).toNat % 2 ^ 31 := by
  rw [truncatedValue, BitVec.toNat_and]
  exact Nat.and_two_pow_sub_one_eq_mod _ 31

/-- R154. The remainder is unsigned. -/
theorem reduced_toNat (d : Digest) : (reduced d).toNat = (truncatedValue d).toNat % 1000000 := BitVec.toNat_umod

/-- Settles O51: each step of the truncator as a number. -/
theorem truncationIsUnsignedArithmetic : Obligations.TruncationIsUnsignedArithmetic := by
  rintro d o rfl
  have hword := truncWord_toNat d (truncOffset_toNat d)
  have hbound : d[19].toNat % 16 + 3 ≤ 18 := by omega
  refine ⟨truncOffset_toNat d, hbound, _, rfl, hword, ?_, ?_⟩
  · rw [truncatedValue_toNat, hword]
  · rw [reduced_toNat, truncatedValue_toNat, hword]

end Sys2Proof.Proofs
end

section
/-! PROOFS. The code formatter (`43_format.md` R161, R165): six decimal digits and their value determine each other. -/

namespace Sys2Proof.Proofs

open Sys2Proof.Machine Sys2Proof.Laws

/-- The number six digits stand for (R161). -/
def decimalValue (d : Digits) : Nat :=
  100000 * d[0].toNat + 10000 * d[1].toNat + 1000 * d[2].toNat + 100 * d[3].toNat + 10 * d[4].toNat + d[5].toNat

/-- R161, digit by digit. Four bits hold a decimal digit, so nothing is cut off. -/
theorem formatCode_toNat (v : Word) (k : Nat) (hk : k < 6) :
    (formatCode v)[k].toNat = v.toNat % 1000000 / 10 ^ (5 - k) % 10 := by
  have hmodulus : Config.modulus = 1000000 := rfl
  rw [formatCode, Vector.getElem_ofFn, hmodulus, BitVec.toNat_ofNat]
  exact Nat.mod_eq_of_lt ((Nat.mod_lt _ (by decide)).trans (by decide))

theorem decimalValue_formatCode (v : Word) : decimalValue (formatCode v) = v.toNat % 1000000 := by
  simp only [decimalValue, formatCode_toNat, Nat.reduceSub, Nat.reducePow]
  omega

/-- A digit is read off the number: the digits right of it vanish in the quotient, those left of it in the remainder. -/
theorem toNat_eq_decimalValue_digit {d : Digits} (hd : ∀ k : Fin 6, d[k].toNat ≤ 9) (k : Nat) (hk : k < 6) :
    d[k].toNat = decimalValue d / 10 ^ (5 - k) % 10 := by
  obtain ⟨h0, h1, h2, h3, h4, h5⟩ :
      d[0].toNat ≤ 9 ∧ d[1].toNat ≤ 9 ∧ d[2].toNat ≤ 9 ∧ d[3].toNat ≤ 9 ∧ d[4].toNat ≤ 9 ∧ d[5].toNat ≤ 9 :=
    ⟨hd 0, hd 1, hd 2, hd 3, hd 4, hd 5⟩
  rw [decimalValue]
  interval_cases k <;> omega

/-- Decimal digits that stand for the value modulo 10^6 are the formatter's: both are read off the same number. -/
theorem eq_formatCode_of_decimalValue {d : Digits} {v : Word} (hd : ∀ k : Fin 6, d[k].toNat ≤ 9)
    (h : decimalValue d = v.toNat % 1000000) : d = formatCode v := by
  refine Vector.ext fun k hk => BitVec.eq_of_toNat_eq ?_
  rw [toNat_eq_decimalValue_digit hd k hk, h, formatCode_toNat]

/-- R165. The formatter sees its value modulo 10^6 only. -/
theorem formatCode_umod (v : Word) : formatCode (v % 1000000) = formatCode v := by
  have hvalue : (v % 1000000).toNat = v.toNat % 1000000 := BitVec.toNat_umod
  refine Vector.ext fun k hk => BitVec.eq_of_toNat_eq ?_
  rw [formatCode_toNat, formatCode_toNat, hvalue, Nat.mod_mod]

/-- Settles O52: the formatter's digits have the value as their number, and no other decimal digits have it. -/
theorem formatIsTheDecimalExpansion : Obligations.FormatIsTheDecimalExpansion := by
  refine fun v => ⟨fmt_le v, fun d hd => ⟨eq_formatCode_of_decimalValue hd, ?_⟩, formatCode_umod v⟩
  rintro rfl
  exact decimalValue_formatCode v

end Sys2Proof.Proofs
end

section
/-! PROOFS. The three commands (`44_commands.md` R171 to R173, R178): what each does in IDLE, that RUN drops each, and
what none of them writes. -/

namespace Sys2Proof.Proofs

open Sys2Proof.Machine Sys2Proof.Laws

/-- What a command does to the engine in IDLE. -/
def idleEffect : Instr → Engine → Engine
  | .nop => id
  | .generate => Engine.accept
  | .zeroize => fun e => e.eraseInputs.clearResult

/-- A command in IDLE has its effect. -/
theorem exec_idle {s : State} (hp : s.engine.phase = .idle) (i : Instr) :
    exec i s = .next (s.onEngine (idleEffect i)) := by
  cases i <;> exact command_idle hp _

/-- Everything a command can do, in either phase. -/
theorem exec_cases {i : Instr} {s t : State} (h : exec i s = .next t) :
    (s.engine.phase = .idle ∧ t = s.onEngine (idleEffect i)) ∨
      (s.engine.phase = .run ∧ t = s.onEngine Engine.dropWrite) := by
  rcases phase_cases s.engine with hp | hp
  · cases (exec_idle hp i).symm.trans h
    exact .inl ⟨hp, rfl⟩
  · cases (exec_run hp i).symm.trans h
    exact .inr ⟨hp, rfl⟩

/-! ### Each command -/

/-- Settles O13. -/
theorem nopChangesNothing : Obligations.NopChangesNothing :=
  ⟨fun _ hp => exec_idle hp .nop, fun _ hp => exec_run hp .nop⟩

/-- Settles O14: validation finds nothing to report, so acceptance starts the operation. -/
theorem generateStartsOnValidInputs : Obligations.GenerateStartsOnValidInputs := by
  intro s hp h1 h64 htime
  have haccept := accept_of_inputsValid ((inputsValid_iff s.engine).2 ⟨h1, h64, htime⟩)
  rw [exec_idle hp, State.onEngine, idleEffect, haccept]
  rfl

/-- In IDLE, erasing the inputs and the result leaves of the engine only its enables and its sticky flags. -/
theorem eraseInputs_clearResult_of_idle {e : Engine} (hp : e.phase = .idle) :
    e.eraseInputs.clearResult = { Engine.reset with
      ieDone := e.ieDone, ieErr := e.ieErr, lockErr := e.lockErr, illCmd := e.illCmd } := by
  cases e
  cases hp
  rfl

/-- Settles O16. Empty key memory reads 0x00 at every index, and `irq` needs `DONE` or `ERR`. -/
theorem zeroizeErasesInputsAndResult : Obligations.ZeroizeErasesInputsAndResult :=
  ⟨fun _ hp => ⟨_, exec_idle hp .zeroize, rfl, rfl, eraseInputs_clearResult_of_idle hp, fun _ => rfl, rfl⟩,
    fun _ hp => exec_run hp .zeroize⟩

/-- Settles O17: the lock comes before the word is decoded. -/
theorem busyEngineDropsEveryCommand : Obligations.BusyEngineDropsEveryCommand :=
  fun _ hp => ⟨exec_run hp, hostWrite_locked rfl hp⟩

/-! ### The frame -/

/-- No command writes the interrupt enables, `ILLCMD` or, in IDLE, `LOCKERR`. -/
theorem idleEffect_keeps (i : Instr) (e : Engine) :
    (idleEffect i e).ieDone = e.ieDone ∧ (idleEffect i e).ieErr = e.ieErr ∧ (idleEffect i e).illCmd = e.illCmd ∧
      (idleEffect i e).lockErr = e.lockErr := by
  cases i with
  | nop => exact ⟨rfl, rfl, rfl, rfl⟩
  | generate =>
    obtain ⟨hieDone, hieErr, hill, hlock, _⟩ := accept_frame e
    exact ⟨hieDone, hieErr, hill, hlock⟩
  | zeroize => exact ⟨rfl, rfl, rfl, rfl⟩

/-- No command but ZEROIZE writes an input. -/
theorem idleEffect_keeps_inputs {i : Instr} (hi : i ≠ .zeroize) (e : Engine) :
    (idleEffect i e).keyLen = e.keyLen ∧ (idleEffect i e).time = e.time ∧ (idleEffect i e).key = e.key := by
  cases i with
  | nop => exact ⟨rfl, rfl, rfl⟩
  | generate =>
    obtain ⟨_, _, _, _, hinputs⟩ := accept_frame e
    exact hinputs
  | zeroize => exact absurd rfl hi

/-- Settles O19: in IDLE by the effect of each command, in RUN by the dropped write. -/
theorem commandsKeepEverythingElse : Obligations.CommandsKeepEverythingElse := by
  intro i s t h
  rcases exec_cases h with ⟨_, rfl⟩ | ⟨hp, rfl⟩
  · obtain ⟨hieDone, hieErr, hill, hlock⟩ := idleEffect_keeps i s.engine
    refine ⟨rfl, rfl, hieDone, hieErr, hill, fun _ => hlock, fun hi => ?_⟩
    obtain ⟨hlen, htime, hkey⟩ := idleEffect_keeps_inputs hi s.engine
    exact ⟨hlen, htime, fun a => congrArg (Memory.read · a) hkey⟩
  · refine ⟨rfl, rfl, rfl, rfl, rfl, fun hidle => ?_, fun _ => ⟨rfl, rfl, fun _ => rfl⟩⟩
    rw [hp] at hidle
    cases hidle

end Sys2Proof.Proofs
end

section
/-! PROOFS. The running operation (`44_commands.md` R174 to R176): what completion publishes, that host accesses before
it make no difference, and the published code as arithmetic on numbers. -/

namespace Sys2Proof.Proofs

open Sys2Proof.Machine Sys2Proof.Laws

/-! ### Completion -/

/-- Completion raises `irq` when `IE_DONE` is 1 (R175). -/
theorem irq_publish_of_ieDone {e : Engine} (h : e.ieDone = true) : e.publish.irq = true := by
  rw [Engine.irq, publish_done, publish_ieDone, h]
  rfl

/-- Settles O33. -/
theorem completionPublishesTheCode : Obligations.CompletionPublishesTheCode :=
  ⟨fun _ hp h1 h64 htime => ⟨_, completion_run hp h1 h64 htime, rfl, irq_publish_of_ieDone⟩,
    fun _ hp => completion_idle hp⟩

/-! ### Host accesses before completion -/

/-- Any list of host accesses in RUN leaves the phase and the inputs of the operation as they were (R176, `10_state.md`
R45). -/
theorem run_accesses {accesses : List Txn} {s : State} {rest : List Event} (hp : s.engine.phase = .run)
    (hs : s.script = accesses.map Event.access ++ rest) :
    ∃ u, core.run accesses.length s = .next u ∧ u.script = rest ∧ u.engine.phase = .run ∧
      u.engine.key = s.engine.key ∧ u.engine.keyLen = s.engine.keyLen ∧ u.engine.time = s.engine.time := by
  induction accesses generalizing s with
  | nil => exact ⟨s, run_zero s, hs, hp, rfl, rfl, rfl⟩
  | cons t ts ih =>
    obtain ⟨v, haccess⟩ := hostAccess_next t { s with script := ts.map Event.access ++ rest }
    obtain ⟨hpv, hkeyv, hlenv, htimev⟩ :=
      hostAccess_run (s := { s with script := ts.map Event.access ++ rest }) hp haccess
    obtain ⟨u, hrun, hscript, hpu, hkey, hlen, htime⟩ := ih hpv (hostAccess_script haccess)
    exact ⟨u, run_of_step ((step_access hs).trans haccess) hrun, hscript, hpu, hkey.trans hkeyv, hlen.trans hlenv,
      htime.trans htimev⟩

/-- Settles O36: completion finds the key and the time that the accesses found. -/
theorem hostCannotDisturbARunningOperation : Obligations.HostCannotDisturbARunningOperation := by
  intro s accesses hp h1 h64 htime
  obtain ⟨u, hrun, hscript, hpu, hkey, hlen, ht⟩ :=
    run_accesses (s := { s with script := accesses.map Event.access ++ [.run] }) hp rfl
  have hv : u.engine.inputsValid = true := by
    rw [inputsValid_iff, hlen, ht]
    exact ⟨h1, h64, htime⟩
  have hstep := step_run_of_inputsValid hpu hv hscript
  refine ⟨_, run_of_run hrun (run_of_step hstep (run_zero _)), rfl, rfl, rfl, rfl, ?_, hkey, hlen, ht⟩
  rw [publish_codeD, Engine.keyBytes, hkey, hlen, ht]

/-! ### The code as arithmetic -/

/-- The counter's bytes as quotients of the time (`40_counter.md` R111, R115). -/
theorem counterBytes_toList (t : BitVec 64) :
    (counterBytes (counter t)).toList =
      (List.range 8).map fun j => BitVec.ofNat 8 (t.toNat / 30 / 2 ^ (8 * (7 - j))) := by
  refine List.ext_getElem (by simp) fun j hj _ => BitVec.eq_of_toNat_eq ?_
  rw [Vector.length_toList] at hj
  have hbyte := counterBytesAreBigEndian (counter t) ⟨j, hj⟩
  rw [counter_toNat] at hbyte
  rw [Vector.getElem_toList, List.getElem_map, List.getElem_range, BitVec.toNat_ofNat]
  exact hbyte

/-- Settles O53: the four stages as numbers, one after the other. -/
theorem generateCodeIsTheStatedFunction : Obligations.GenerateCodeIsTheStatedFunction := by
  intro key t _ _ _
  obtain ⟨_, _, p, hp, _, _, hreduced⟩ := truncationIsUnsignedArithmetic (codeDigest key t) _ rfl
  refine ⟨_, codeDigest key t, _, p, rfl, by rw [codeDigest, counterBytes_toList], rfl, hp, fun k => ?_⟩
  have hdigit := formatCode_toNat (reduced (codeDigest key t)) k k.isLt
  rw [hreduced, Nat.mod_mod] at hdigit
  exact hdigit

end Sys2Proof.Proofs
end

section
/-! PROOFS. Errors and the interrupt line (`60_exceptions.md` R190 to R204): which error a GENERATE reports, what ends
the error condition, and `irq` as a function of the flags and enables. -/

namespace Sys2Proof.Proofs

open Sys2Proof.Machine Sys2Proof.Laws

/-! ### Error entry -/

/-- GENERATE in IDLE raises the error that validation finds, over the cleared result (R196). -/
theorem exec_generate_of_validate {s : State} {k : ErrorKind} (hp : s.engine.phase = .idle)
    (hv : s.engine.validate = some k) : exec .generate s = .next (s.onEngine fun e => e.clearResult.raise k) := by
  rw [exec_idle hp, State.onEngine, idleEffect, accept_of_some hv]
  rfl

/-- Settles O15, by the first cause that validation finds; without a cause there is no code to report. -/
theorem generateReportsTheFirstError : Obligations.GenerateReportsTheFirstError := by
  intro s code hp hcode
  rcases validate_cases s.engine with ⟨h0, hv⟩ | ⟨h0, ht, hv⟩ | ⟨hlong, ht, hv⟩ | ⟨h1, h64, ht, _⟩
  · rw [if_pos h0] at hcode
    subst hcode
    exact exec_generate_of_validate hp hv
  · rw [if_neg h0, if_pos ht] at hcode
    subst hcode
    exact exec_generate_of_validate hp hv
  · rw [if_neg (by omega), if_neg (by omega)] at hcode
    obtain ⟨_, rfl⟩ := hcode
    exact exec_generate_of_validate hp hv
  · rw [if_neg (by omega), if_neg (by omega)] at hcode
    omega

/-! ### The same error again -/

/-- Validation reads the inputs alone, and error entry writes none of them. -/
theorem validate_clearResult_raise (e : Engine) (k : ErrorKind) : (e.clearResult.raise k).validate = e.validate := rfl

/-- Entering the same error twice is entering it once. -/
theorem clearResult_raise_clearResult_raise (e : Engine) (k : ErrorKind) :
    (e.clearResult.raise k).clearResult.raise k = e.clearResult.raise k := rfl

/-- Settles O20: the second GENERATE finds the same inputs, so the same error, and the result is clear already. -/
theorem repeatedGenerateYieldsTheSameError : Obligations.RepeatedGenerateYieldsTheSameError := by
  intro s t hp h herr
  cases hv : s.engine.validate with
  | none =>
    cases (exec_idle hp .generate).symm.trans h
    have hstarted : s.engine.accept.err = false := by rw [accept_of_none hv, clearResult_err]
    exact absurd (hstarted.symm.trans herr) Bool.false_ne_true
  | some k =>
    cases (exec_generate_of_validate hp hv).symm.trans h
    have hagain : (s.engine.clearResult.raise k).validate = some k := (validate_clearResult_raise s.engine k).trans hv
    rw [exec_generate_of_validate (s := s.onEngine fun e => e.clearResult.raise k) hp hagain, State.onEngine,
      State.onEngine, clearResult_raise_clearResult_raise]

/-! ### The end of an error -/

/-- A STATUS write of bit 2 alone is the return from an error: the other flags stay as they are. -/
theorem writeStatus_errBit (e : Engine) : e.writeStatus 0x00000004 = e.clearError := by
  simp [Engine.writeStatus, Engine.clearError]

/-- A STATUS write with bit 2 set, whatever its other bits, clears `ERR` and `ERRCODE` together. -/
theorem writeStatus_ends_error (e : Engine) {w : Word} (hw : w.getLsbD 2 = true) :
    (e.writeStatus w).err = false ∧ (e.writeStatus w).errCode = 0 := by
  rw [writeStatus_err, writeStatus_errCode, hw]
  exact ⟨Bool.and_false _, rfl⟩

/-- Settles O31, one clause for each way R198 names. -/
theorem errorEndsOnAcknowledgeOrCommand : Obligations.ErrorEndsOnAcknowledgeOrCommand := fun s hp _ =>
  ⟨⟨_, hostWrite_status s _, writeStatus_errBit s.engine⟩,
    fun w hw => ⟨_, hostWrite_status s w, writeStatus_ends_error s.engine hw⟩,
    fun h1 h64 ht => ⟨_, generateStartsOnValidInputs s hp h1 h64 ht, rfl, rfl, rfl⟩,
    ⟨_, exec_idle hp .zeroize, rfl, rfl⟩, rfl, rfl⟩

/-! ### The interrupt line -/

/-- R203, as a proposition. -/
theorem irq_iff (e : Engine) :
    e.irq = true ↔ (e.done = true ∧ e.ieDone = true) ∨ (e.err = true ∧ e.ieErr = true) := by
  rw [Engine.irq, Bool.or_eq_true, Bool.and_eq_true, Bool.and_eq_true]

/-- Completion without an error pending gives the line the value of `IE_DONE`. -/
theorem irq_publish {e : Engine} (herr : e.err = false) : e.publish.irq = e.ieDone := by
  simp [Engine.irq, herr]

/-- After acceptance `DONE` is 0, so the line follows `ERR` alone. -/
theorem irq_accept (e : Engine) : e.accept.irq = (e.accept.err && e.ieErr) := by
  obtain ⟨hdone, _⟩ := accept_result e
  obtain ⟨_, hieErr, _⟩ := accept_frame e
  rw [Engine.irq, hdone, hieErr, Bool.false_and, Bool.false_or]

/-- A STATUS write takes from the line each source whose flag it clears. -/
theorem irq_writeStatus (e : Engine) (w : Word) :
    (e.writeStatus w).irq = ((e.done && e.ieDone && !w.getLsbD 1) || (e.err && e.ieErr && !w.getLsbD 2)) := by
  simp only [Engine.irq, writeStatus_done, writeStatus_err, writeStatus_ieDone, writeStatus_ieErr, Bool.and_right_comm]

/-- Settles O32: each operation's effect on the line. The invariant says that no error is pending in RUN. -/
theorem irqFollowsDoneAndErr : Obligations.IrqFollowsDoneAndErr := by
  refine ⟨irq_iff, fun s t hi h => ?_, fun s t hp h => ?_, fun s t hp h => ?_, fun _ => rfl, fun s t w h => ?_,
    fun s t w h => ?_, fun _ _ _ _ => rfl⟩
  · obtain ⟨hp, _, _, _, rfl⟩ := completion_cases h
    obtain ⟨hclean, _⟩ := hi
    obtain ⟨_, herr, _⟩ := hclean hp
    exact ⟨rfl, irq_publish herr⟩
  · cases (exec_idle hp .generate).symm.trans h
    exact irq_accept s.engine
  · cases (exec_idle hp .zeroize).symm.trans h
    rfl
  · cases (hostWrite_status s w).symm.trans h
    exact irq_writeStatus s.engine w
  · cases (hostWrite_irqEn s w).symm.trans h
    rfl

end Sys2Proof.Proofs
end

section
/-! PROOFS. Reset (`70_reset_and_hazards.md` R220, R221): the reset step, and what a cycle with `rst` high does and
shows. -/

namespace Sys2Proof.Proofs

open Sys2Proof.Machine Sys2Proof.Laws

/-- Settles O6: the step takes the reset event, whatever the phase, and the engine of the reset machine is the engine
after reset. -/
theorem resetStepFromAnyState : Obligations.ResetStepFromAnyState := fun _ _ => step_reset

/-! ### The pins while `rst` is high -/

/-- `rst` is looked at first: neither the bus access nor completion takes place. -/
theorem clockCycle_of_rst {p : Pins} (h : p.rst = true) (fires : Bool) (s : State) :
    clockCycle p fires s = .next s.resetStep := by
  rw [clockCycle, if_pos h]

/-- `rst` gates the interrupt line. -/
theorem irqPin_of_rst {p : Pins} (h : p.rst = true) (s : State) : irqPin p s = false := by
  rw [irqPin, h, Bool.not_true, Bool.false_and]

/-- A read in a cycle with `rst` high shows the registers of the engine after reset, not those of the state. -/
theorem rdataPin_of_rst {p : Pins} (h : p.rst = true) (hsel : p.sel = true) (hwe : p.we = false) (s : State) :
    rdataPin p s = some (Engine.reset.readReg (Reg.ofAddr p.addr)) := by
  rw [rdataPin, if_pos (by rw [hsel, hwe]; rfl), if_pos h]

/-- Settles O60, one pin rule for each clause. -/
theorem resetPinHasPriority : Obligations.ResetPinHasPriority := fun _ fires s h =>
  ⟨clockCycle_of_rst h fires s, irqPin_of_rst h s, fun hsel hwe => rdataPin_of_rst h hsel hwe s⟩

end Sys2Proof.Proofs
end
